-- ==== Sys2Proof/Word.lean ====
section
/-! DEFINITION. The word types of CORE: spec/00_scope.md rules R2 and R6. All register, PC and address
arithmetic is `BitVec 16` arithmetic, which wraps modulo 65536 (R6). -/

namespace Sys2Proof

/-- A word of CORE: 16 bits, bit 15 the most significant (R6). Addresses are words too (R30). -/
abbrev Word := BitVec 16

/-- A byte at one of the ports (R150, R151). -/
abbrev Byte := BitVec 8

/-- A 3-bit register field; it selects one of the eight general registers by its number (R10, R65). -/
abbrev Reg := BitVec 3

end Sys2Proof
end

