-- ==== Sys2Proof/Syntax.lean ====
section
/-! DEFINITION. The decoded instruction: spec/30_encoding.md rule R66. One constructor per row of
spec/opcode_table.json. Register fields are 3-bit numbers; immediates are held sign-extended, as 16-bit
words (R66). -/

namespace Sys2Proof

/-- The `Instruction` type of R66, in the order of the opcode table. -/
inductive Instr where
  /-- BR, opcode 0000 (R120). -/
  | br (n z p : Bool) (off : Word)
  /-- ADD, register form, opcode 0001 with bit 5 = 0 (R100). -/
  | addReg (dr sr1 sr2 : Reg)
  /-- ADD, immediate form, opcode 0001 with bit 5 = 1 (R100). -/
  | addImm (dr sr1 : Reg) (imm : Word)
  /-- LD, opcode 0010 (R110). -/
  | ld (dr : Reg) (off : Word)
  /-- ST, opcode 0011 (R114). -/
  | st (sr : Reg) (off : Word)
  /-- JSR, opcode 0100 with bit 11 = 1 (R122). -/
  | jsr (off : Word)
  /-- JSRR, opcode 0100 with bit 11 = 0 (R123). -/
  | jsrr (base : Reg)
  /-- AND, register form, opcode 0101 with bit 5 = 0 (R101). -/
  | andReg (dr sr1 sr2 : Reg)
  /-- AND, immediate form, opcode 0101 with bit 5 = 1 (R101). -/
  | andImm (dr sr1 : Reg) (imm : Word)
  /-- LDR, opcode 0110 (R112). -/
  | ldr (dr base : Reg) (off : Word)
  /-- STR, opcode 0111 (R116). -/
  | str (sr base : Reg) (off : Word)
  /-- RTI, opcode 1000 (R131). -/
  | rti
  /-- NOT, opcode 1001 (R102). -/
  | not (dr sr : Reg)
  /-- LDI, opcode 1010 (R111). -/
  | ldi (dr : Reg) (off : Word)
  /-- STI, opcode 1011 (R115). -/
  | sti (sr : Reg) (off : Word)
  /-- JMP, opcode 1100 (R121); RET is JMP with base register 7. -/
  | jmp (base : Reg)
  /-- RESERVED, opcode 1101 (R132). -/
  | reserved (low12 : BitVec 12)
  /-- LEA, opcode 1110 (R113). -/
  | lea (dr : Reg) (off : Word)
  /-- TRAP, opcode 1111 (R130). -/
  | trap (vect : BitVec 8)
deriving DecidableEq, Repr

end Sys2Proof
end

