-- ==== Sys2Proof/WellFormed.lean ====
section
/-! DEFINITION. Which instruction values carry canonical field values: spec/30_encoding.md rule R80. -/

namespace Sys2Proof

/-- "an immediate word that is the sign extension of its own low `w` bits (so that cutting it loses
nothing)" (R80). -/
def fitsSigned (w : Nat) (v : Word) : Bool := (v.setWidth w).signExtend 16 == v

/-- Every field is a canonical field value (R80). Register numbers, mask bits, the vector and `low12` are
canonical by their types, so only the immediates are checked. -/
def Instr.wellFormed : Instr → Bool
  | .br _ _ _ off => fitsSigned 9 off
  | .addReg _ _ _ => true
  | .addImm _ _ imm => fitsSigned 5 imm
  | .ld _ off => fitsSigned 9 off
  | .st _ off => fitsSigned 9 off
  | .jsr off => fitsSigned 11 off
  | .jsrr _ => true
  | .andReg _ _ _ => true
  | .andImm _ _ imm => fitsSigned 5 imm
  | .ldr _ _ off => fitsSigned 6 off
  | .str _ _ off => fitsSigned 6 off
  | .rti => true
  | .not _ _ => true
  | .ldi _ off => fitsSigned 9 off
  | .sti _ off => fitsSigned 9 off
  | .jmp _ => true
  | .reserved _ => true
  | .lea _ off => fitsSigned 9 off
  | .trap _ => true

end Sys2Proof
end

