-- ==== Sys2Proof/Decode.lean ====
section
/-! DEFINITION. The instruction codec: spec/30_encoding.md. `decode` is total (R67); `encode` follows R80. The
eight choices of R63 (field positions and polarities) stand in one table, `fieldTable`. -/

namespace Sys2Proof

/-- Sign extension of a `w`-bit field to a word (R64). -/
def sext {w : Nat} (f : BitVec w) : Word := f.signExtend 16

/-- Zero extension of a field to a word (R6, R65). -/
def zext {w : Nat} (f : BitVec w) : Word := f.setWidth 16

/-- The `len`-bit field of `w` whose lowest bit is bit `lo`: `w[lo+len-1:lo]` (R6). -/
def bits (lo len : Nat) (w : Word) : BitVec len := w.extractLsb' lo len

/-- The word that holds the field `f` from bit `lo` up and 0 elsewhere. -/
def put {len : Nat} (lo : Nat) (f : BitVec len) : Word := f.setWidth 16 <<< lo

/-- The word that holds one bit at position `at_` and 0 elsewhere. -/
def putBit (at_ : Nat) (b : Bool) : Word := put at_ (BitVec.ofBool b)

/-- The field positions and polarities that R63 chooses, one field per row of its table. -/
structure FieldTable where
  /-- which value of bit 5 of ADD and AND means immediate -/
  immMode : Bool
  /-- lowest bit of SR2 -/
  sr2Lo : Nat
  /-- bit of the N mask of BR -/
  nBit : Nat
  /-- bit of the Z mask of BR -/
  zBit : Nat
  /-- bit of the P mask of BR -/
  pBit : Nat
  /-- which value of bit 11 of opcode 0100 means offset (JSR) -/
  offsetMode : Bool
  /-- lowest bit of BaseR in JSRR -/
  jsrrBaseLo : Nat
  /-- lowest bit of BaseR in JMP -/
  jmpBaseLo : Nat
  /-- lowest bit of the trap vector -/
  vectLo : Nat
  /-- the low six bits of NOT that `encode` writes -/
  notLow : BitVec 6
deriving DecidableEq, Repr

/-- The values R63 takes (UNVERIFIED: the spec marks them as general knowledge, its decision D7 and D8; log
entries 14 and 15). -/
def fieldTable : FieldTable where
  immMode := true
  sr2Lo := 0
  nBit := 11
  zBit := 10
  pBit := 9
  offsetMode := true
  jsrrBaseLo := 6
  jmpBaseLo := 6
  vectLo := 0
  notLow := 0b111111#6

/-- `decode` (R67): the top four bits select the opcode, one mode bit splits 0001, 0101 and 0100; every word
decodes. The sixteen arms are in the order of the opcode map R68. -/
def decode (w : Word) : Instr :=
  match w.getLsbD 15, w.getLsbD 14, w.getLsbD 13, w.getLsbD 12 with
  | false, false, false, false =>
    .br (w.getLsbD fieldTable.nBit) (w.getLsbD fieldTable.zBit) (w.getLsbD fieldTable.pBit) (sext (bits 0 9 w))
  | false, false, false, true =>
    if w.getLsbD 5 = fieldTable.immMode then .addImm (bits 9 3 w) (bits 6 3 w) (sext (bits 0 5 w))
    else .addReg (bits 9 3 w) (bits 6 3 w) (bits fieldTable.sr2Lo 3 w)
  | false, false, true, false => .ld (bits 9 3 w) (sext (bits 0 9 w))
  | false, false, true, true => .st (bits 9 3 w) (sext (bits 0 9 w))
  | false, true, false, false =>
    if w.getLsbD 11 = fieldTable.offsetMode then .jsr (sext (bits 0 11 w))
    else .jsrr (bits fieldTable.jsrrBaseLo 3 w)
  | false, true, false, true =>
    if w.getLsbD 5 = fieldTable.immMode then .andImm (bits 9 3 w) (bits 6 3 w) (sext (bits 0 5 w))
    else .andReg (bits 9 3 w) (bits 6 3 w) (bits fieldTable.sr2Lo 3 w)
  | false, true, true, false => .ldr (bits 9 3 w) (bits 6 3 w) (sext (bits 0 6 w))
  | false, true, true, true => .str (bits 9 3 w) (bits 6 3 w) (sext (bits 0 6 w))
  | true, false, false, false => .rti
  | true, false, false, true => .not (bits 9 3 w) (bits 6 3 w)
  | true, false, true, false => .ldi (bits 9 3 w) (sext (bits 0 9 w))
  | true, false, true, true => .sti (bits 9 3 w) (sext (bits 0 9 w))
  | true, true, false, false => .jmp (bits fieldTable.jmpBaseLo 3 w)
  | true, true, false, true => .reserved (bits 0 12 w)
  | true, true, true, false => .lea (bits 9 3 w) (sext (bits 0 9 w))
  | true, true, true, true => .trap (bits fieldTable.vectLo 8 w)

/-- The opcode, bits 15 to 12, of an instruction value (R68). -/
def opcodeOf : Instr → BitVec 4
  | .br _ _ _ _ => 0x0#4
  | .addReg _ _ _ => 0x1#4
  | .addImm _ _ _ => 0x1#4
  | .ld _ _ => 0x2#4
  | .st _ _ => 0x3#4
  | .jsr _ => 0x4#4
  | .jsrr _ => 0x4#4
  | .andReg _ _ _ => 0x5#4
  | .andImm _ _ _ => 0x5#4
  | .ldr _ _ _ => 0x6#4
  | .str _ _ _ => 0x7#4
  | .rti => 0x8#4
  | .not _ _ => 0x9#4
  | .ldi _ _ => 0xA#4
  | .sti _ _ => 0xB#4
  | .jmp _ => 0xC#4
  | .reserved _ => 0xD#4
  | .lea _ _ => 0xE#4
  | .trap _ => 0xF#4

/-- The fields below the opcode, each at its place (R61, R80): a sign-extended immediate is cut to its low
bits, unused bits are 0 except the low six bits of NOT. -/
def operandBits : Instr → Word
  | .br n z p off =>
    putBit fieldTable.nBit n ||| putBit fieldTable.zBit z ||| putBit fieldTable.pBit p ||| put 0 (bits 0 9 off)
  | .addReg dr sr1 sr2 => put 9 dr ||| put 6 sr1 ||| putBit 5 (!fieldTable.immMode) ||| put fieldTable.sr2Lo sr2
  | .addImm dr sr1 imm => put 9 dr ||| put 6 sr1 ||| putBit 5 fieldTable.immMode ||| put 0 (bits 0 5 imm)
  | .ld dr off => put 9 dr ||| put 0 (bits 0 9 off)
  | .st sr off => put 9 sr ||| put 0 (bits 0 9 off)
  | .jsr off => putBit 11 fieldTable.offsetMode ||| put 0 (bits 0 11 off)
  | .jsrr base => putBit 11 (!fieldTable.offsetMode) ||| put fieldTable.jsrrBaseLo base
  | .andReg dr sr1 sr2 => put 9 dr ||| put 6 sr1 ||| putBit 5 (!fieldTable.immMode) ||| put fieldTable.sr2Lo sr2
  | .andImm dr sr1 imm => put 9 dr ||| put 6 sr1 ||| putBit 5 fieldTable.immMode ||| put 0 (bits 0 5 imm)
  | .ldr dr base off => put 9 dr ||| put 6 base ||| put 0 (bits 0 6 off)
  | .str sr base off => put 9 sr ||| put 6 base ||| put 0 (bits 0 6 off)
  | .rti => 0#16
  | .not dr sr => put 9 dr ||| put 6 sr ||| put 0 fieldTable.notLow
  | .ldi dr off => put 9 dr ||| put 0 (bits 0 9 off)
  | .sti sr off => put 9 sr ||| put 0 (bits 0 9 off)
  | .jmp base => put fieldTable.jmpBaseLo base
  | .reserved low12 => put 0 low12
  | .lea dr off => put 9 dr ||| put 0 (bits 0 9 off)
  | .trap vect => put fieldTable.vectLo vect

/-- `encode` (R80). -/
def encode (i : Instr) : Word := put 12 (opcodeOf i) ||| operandBits i

/-- The bits that `decode` reads, by opcode and mode bit: every bit but those R61 marks `-`. Two words that
agree on them decode alike (R76). -/
def usedBits (w : Word) : Word :=
  match w.getLsbD 15, w.getLsbD 14, w.getLsbD 13, w.getLsbD 12 with
  | false, false, false, true => if w.getLsbD 5 then 0xFFFF#16 else 0xFFE7#16
  | false, true, false, false => if w.getLsbD 11 then 0xFFFF#16 else 0xF9C0#16
  | false, true, false, true => if w.getLsbD 5 then 0xFFFF#16 else 0xFFE7#16
  | true, false, false, false => 0xF000#16
  | true, false, false, true => 0xFFC0#16
  | true, true, false, false => 0xF1C0#16
  | true, true, true, true => 0xF0FF#16
  | _, _, _, _ => 0xFFFF#16

/-- The instruction `decode` reads from the bits `w` of a table row `nbits` wide (bit 0 the least significant
bit of the first word). Every instruction is one word (R60), so a row wider than a word is none of CORE's; bits
above `nbits` are 0. -/
def decodeTableWord (nbits w : Nat) : Option Instr :=
  if nbits ≤ 16 then some (decode (BitVec.ofNat 16 (w % 2 ^ nbits))) else none

end Sys2Proof
end

