-- ==== Sys2Proof/Config.lean ====
section
/-! DEFINITION. The parameters of CORE (spec/00_scope.md rule R3) as one record, the answers the host gives
at the ports (rules R150 and R151), and the free values: constants without a body, of which nothing can be
proved. The values the spec decides for the parameters are in Sys2Proof/Machine/Params.lean. -/

namespace Sys2Proof

/-- The four values of the optional branch predictor, in the order of R190. -/
inductive Pred where
  | stronglyNotTaken
  | notTaken
  | taken
  | stronglyTaken
deriving DecidableEq, Repr, Inhabited

/-- An answer of the input port to one `InPoll()` (R150). -/
inductive InAnswer where
  /-- The next byte of the input, consumed by this poll. -/
  | byte (b : Byte)
  /-- No byte now, more may come. -/
  | empty
  /-- No more bytes ever. -/
  | exhausted
  /-- The user pressed the cancel key. -/
  | cancelled
deriving DecidableEq, Repr, Inhabited

/-- An answer of the output port to one `OutWrite(bytes)` (R151). -/
inductive OutAnswer where
  | ok
  | fail
deriving DecidableEq, Repr, Inhabited

/-- The parameters of R3, one field each. They are fixed for a machine; no rule of the spec depends on the
value of one (R3), so statements are about every `Config`. -/
structure Config where
  /-- KBSR_ADDR -/
  kbsrAddr : Word
  /-- KBDR_ADDR -/
  kbdrAddr : Word
  /-- DSR_ADDR -/
  dsrAddr : Word
  /-- DDR_ADDR -/
  ddrAddr : Word
  /-- CLK_ADDR -/
  clkAddr : Word
  /-- START_PC: the PC the host sets before the first cycle (R176). -/
  startPc : Word
  /-- SINK_IS_TERMINAL: a line feed written to DDR is forwarded as carriage return, line feed (R41). -/
  sinkIsTerminal : Bool
  /-- KBDR_READ_CLEARS: a read of KBDR zeroes it (R37). -/
  kbdrReadClears : Bool
  /-- PREDICTOR_WIRED: BR reports its outcome to the predictor (R193). -/
  predictorWired : Bool
  /-- PRED_INIT: the predictor after reset (R190). -/
  predInit : Pred
  /-- TRACE_MASK: bit n is set when opcode n is of interest (R155). -/
  traceMask : BitVec 16
  /-- TRACE_USER_ONLY: trace only at PC 0x3000 and above (R155). -/
  traceUserOnly : Bool
  /-- TRACE_ENABLED: false is the "no tracing" configuration (R155). -/
  traceEnabled : Bool
deriving DecidableEq, Repr

/-- "The five addresses must be pairwise distinct." (R3) -/
abbrev Config.Distinct (c : Config) : Prop :=
  [c.kbsrAddr, c.kbdrAddr, c.dsrAddr, c.ddrAddr, c.clkAddr].Nodup

/-- The five device-register addresses (R18). -/
def Config.isDevice (c : Config) (a : Word) : Bool :=
  a = c.kbsrAddr ∨ a = c.kbdrAddr ∨ a = c.dsrAddr ∨ a = c.ddrAddr ∨ a = c.clkAddr

/-! Free values. R3 leaves these parameters OPEN (log entry 3). -/

/-- START_PC, OPEN in R3. Free value, log entry 3. -/
opaque Config.openStartPc : Word

/-- SINK_IS_TERMINAL, OPEN in R3. Free value, log entry 3. -/
opaque Config.openSinkIsTerminal : Bool

/-- PRED_INIT, OPEN in R3. Free value, log entry 3. -/
opaque Config.openPredInit : Pred

/-- TRACE_MASK, OPEN in R3. Free value, log entry 3. -/
opaque Config.openTraceMask : BitVec 16

/-- TRACE_USER_ONLY, OPEN in R3. Free value, log entry 3. -/
opaque Config.openTraceUserOnly : Bool

/-- TRACE_ENABLED, OPEN in R3. Free value, log entry 3. -/
opaque Config.openTraceEnabled : Bool

/-- What the host answers at the n-th `InPoll()` when no prepared answer is left (R150: "The answers are not
chosen by CORE"). Free value, log entry 4. -/
opaque Config.freeInAnswer : Nat → InAnswer

/-- What the host answers at the n-th `OutWrite` when no prepared answer is left (R151: "The answer is the
host's"). Free value, log entry 5. -/
opaque Config.freeOutAnswer : Nat → OutAnswer

end Sys2Proof
end

