-- ==== Sys2Proof/Machine/Ports.lean ====
section
/-! DEFINITION. The host's side of the ports as plain data, and the port calls CORE makes: spec/00_scope.md rule R5,
spec/60_exceptions.md rules R150 to R155. The fields of `InPort` and `OutPort` are the MODEL's own (log entries
4 and 5): they stand for the host, whose answers "are not chosen by CORE" (R150). -/

namespace Sys2Proof.Machine

/-- The condition code, "a tri-state value {Negative, Zero, Positive}" (R15). -/
inductive CC where
  | n
  | z
  | p
deriving DecidableEq, Repr

/-- The kinds of diagnostic (R152). -/
inductive DiagKind where
  | moreInputRequired
  | userCancelled
deriving DecidableEq, Repr

/-- The record of the trace port, `(IR, x[0..7], pc, CC)` (R155). -/
structure TraceRecord where
  ir : Word
  regs : Vector Word 8
  pc : Word
  cc : CC
deriving DecidableEq, Repr

/-- A port call with its answer (R5). The sequence of port calls is part of the final state (R97). -/
inductive PortCall where
  | inPoll (answer : InAnswer)
  | outWrite (bytes : List Byte) (answer : OutAnswer)
  | diag (kind : DiagKind)
  | traceEmit (rec : TraceRecord)
deriving DecidableEq, Repr

/-- The input port (R150). -/
structure InPort where
  /-- answers the host has ready, the next one first -/
  answers : List InAnswer
  /-- whether `Exhausted` was answered: from then on every answer is `Exhausted` (R150, decision D28) -/
  exhausted : Bool
  /-- how many polls were made; the index of the free answer -/
  polls : Nat
deriving DecidableEq, Repr

/-- The output port (R151). -/
structure OutPort where
  /-- answers the host has ready, the next one first -/
  answers : List OutAnswer
  /-- how many writes were made; the index of the free answer -/
  writes : Nat
deriving DecidableEq, Repr

/-- The answer to the next `InPoll()`: `Exhausted` for ever once it was given (R150, decision D28), else the
host's next prepared answer, else a free value (log entry 4). -/
def InPort.next (p : InPort) : InAnswer :=
  if p.exhausted then .exhausted
  else match p.answers with
    | a :: _ => a
    | [] => Config.freeInAnswer p.polls

/-- The input port after one `InPoll()`: "`Byte(b)` delivers the next byte of the input and consumes it" (R150). -/
def InPort.afterPoll (p : InPort) : InPort where
  answers := p.answers.tail
  exhausted := p.next == .exhausted
  polls := p.polls + 1

/-- The answer to the next `OutWrite`: the host's next prepared answer, else a free value (R151, log entry 5). -/
def OutPort.next (p : OutPort) : OutAnswer :=
  match p.answers with
  | a :: _ => a
  | [] => Config.freeOutAnswer p.writes

/-- The output port after one `OutWrite`. -/
def OutPort.afterWrite (p : OutPort) : OutPort where
  answers := p.answers.tail
  writes := p.writes + 1

/-- The bytes one port call put on the sink: "The observable output of a run is the concatenation of the byte
lists of the calls that answered `Ok`" (R151). -/
def PortCall.sent : PortCall → List Byte
  | .outWrite bytes .ok => bytes
  | .outWrite _ .fail => []
  | .inPoll _ => []
  | .diag _ => []
  | .traceEmit _ => []

end Sys2Proof.Machine
end

