-- ==== Sys2Proof/Machine/Flags.lean ====
section
/-! DEFINITION. The condition code: how a word sets it (spec/10_state.md rule R16) and how BR tests it
(spec/43_control.md rule R120). -/

namespace Sys2Proof.Machine

/-- `cc_of(v)` (R16). -/
def ccOf (v : Word) : CC :=
  if v = 0x0000#16 then .z else if v.getLsbD 15 then .n else .p

/-- The branch test (R120): the mask bit that matches the current condition code is set (UNVERIFIED: marked in the
spec as general knowledge, its decision D9; log entry 16). -/
def branchTaken (n z p : Bool) : CC → Bool
  | .n => n
  | .z => z
  | .p => p

end Sys2Proof.Machine
end

