-- ==== Sys2Proof/Machine/Predictor.lean ====
section
/-! DEFINITION. The optional branch predictor: spec/70_reset_and_hazards.md rules R190 to R194. -/

namespace Sys2Proof.Machine

/-- The place of a predictor value in the order of R190. -/
def predNumber : Pred → Nat
  | .stronglyNotTaken => 0
  | .notTaken => 1
  | .taken => 2
  | .stronglyTaken => 3

/-- `predicts_taken()` (R191). Nothing in CORE calls it (R194). -/
def predictsTaken : Pred → Bool
  | .stronglyNotTaken => false
  | .notTaken => false
  | .taken => true
  | .stronglyTaken => true

/-- `PredUpdate(s, taken)`, one saturating step (R192). -/
def predUpdate : Pred → Bool → Pred
  | .stronglyNotTaken, true => .notTaken
  | .notTaken, true => .taken
  | .taken, true => .stronglyTaken
  | .stronglyTaken, true => .stronglyTaken
  | .stronglyNotTaken, false => .stronglyNotTaken
  | .notTaken, false => .stronglyNotTaken
  | .taken, false => .notTaken
  | .stronglyTaken, false => .taken

end Sys2Proof.Machine
end

