-- ==== Sys2Proof/Machine/Memory.lean ====
section
/-! DEFINITION. The storage array `M` of spec/20_memory.md rules R30 and R31: 65536 words, word addressed. It is a
list of (address, word) cells in one canonical form: addresses strictly rising and below 65536, no cell equal
to what an unlisted address reads as. The unit of a cell is the word, since R31 gives the machine no smaller
unit and no byte order (DEDUCED, log entry 9). -/

namespace Sys2Proof.Machine

/-- The storage array as its cells. -/
abbrev Memory := List (Nat × Word)

/-- What an address without a cell reads as: "memory/registers/PC/IR/CC are created zero-initialized" (R26). -/
def Memory.unlisted : Word := 0x0000#16

/-- The array with every word at its unlisted value. -/
def Memory.empty : Memory := []

/-- The word at address `k`, from the cells. -/
def Memory.readAt : Memory → Nat → Word
  | [], _ => Memory.unlisted
  | (a, v) :: rest, k => if a = k then v else Memory.readAt rest k

/-- The cells without those for address `k`. -/
def Memory.erase : Memory → Nat → Memory
  | [], _ => []
  | (a, u) :: rest, k => if a = k then Memory.erase rest k else (a, u) :: Memory.erase rest k

/-- The cell for `k` put in its place. -/
def Memory.insert : Memory → Nat → Word → Memory
  | [], k, v => [(k, v)]
  | (a, u) :: rest, k, v =>
    if a < k then (a, u) :: Memory.insert rest k v
    else if a = k then (k, v) :: rest
    else (k, v) :: (a, u) :: rest

/-- The word at address `k` becomes `v`; the unlisted value removes the cell. -/
def Memory.writeAt (m : Memory) (k : Nat) (v : Word) : Memory :=
  if v = Memory.unlisted then Memory.erase m k else Memory.insert m k v

/-- `M[a]`. -/
def Memory.read (m : Memory) (a : Word) : Word := Memory.readAt m a.toNat

/-- `M[a] <- v`. -/
def Memory.write (m : Memory) (a : Word) (v : Word) : Memory := Memory.writeAt m a.toNat v

/-- The cells from address `lo` up are in canonical form. -/
def Memory.wfFrom : Nat → Memory → Bool
  | _, [] => true
  | lo, (a, v) :: rest =>
    decide (lo ≤ a) && decide (a < 65536) && decide (v ≠ Memory.unlisted) && Memory.wfFrom (a + 1) rest

/-- The canonical form. -/
def Memory.wf (m : Memory) : Bool := Memory.wfFrom 0 m

end Sys2Proof.Machine
end

