-- ==== Sys2Proof/Machine/Params.lean ====
section
/-! DEFINITION. The values of the parameters in this spec: spec/00_scope.md rule R3. -/

namespace Sys2Proof

/-- The configuration of R3: the device addresses and the two Booleans at the values the spec decides
(UNVERIFIED: marked there as general knowledge or as decisions D1, D11, D18; log entries 2, 18, 25), the
parameters it leaves OPEN at free values (log entry 3). -/
def Config.default : Config where
  kbsrAddr := 0xFE00#16
  kbdrAddr := 0xFE02#16
  dsrAddr := 0xFE04#16
  ddrAddr := 0xFE06#16
  clkAddr := 0xFFFE#16
  startPc := Config.openStartPc
  sinkIsTerminal := Config.openSinkIsTerminal
  kbdrReadClears := false
  predictorWired := false
  predInit := Config.openPredInit
  traceMask := Config.openTraceMask
  traceUserOnly := Config.openTraceUserOnly
  traceEnabled := Config.openTraceEnabled

end Sys2Proof
end

