-- ==== Sys2Proof/Machine/State.lean ====
section
/-! DEFINITION. The whole state of CORE (spec/10_state.md), the reasons an outcome can stop, and reset (R26). -/

namespace Sys2Proof.Machine

/-- The state: "eight general registers, the program counter, the instruction register, the condition code, the
memory array (which includes the storage words of the device registers), and ... its two-bit [predictor] state"
(10_state.md), with the parameters of the machine (log entry 1) and the host's side of the ports (log entries 4
to 6). -/
structure State where
  /-- the parameters of R3; no step changes them -/
  cfg : Config
  /-- `x[0]` to `x[7]` (R10) -/
  regs : Vector Word 8
  /-- the program counter (R13) -/
  pc : Word
  /-- the instruction register (R14) -/
  ir : Word
  /-- the condition code (R15) -/
  cc : CC
  /-- the storage array `M`, the storage words of KBDR, DSR, DDR and CLK included (R30, R18) -/
  mem : Memory
  /-- the branch predictor (R25, R190) -/
  pred : Pred
  /-- the input port (R150) -/
  input : InPort
  /-- the output port (R151) -/
  output : OutPort
  /-- the port calls made so far, newest first (R97) -/
  log : List PortCall
deriving DecidableEq, Repr

/-- Why an outcome is a fault. No step of CORE faults (R98, R140); only loading a file can. -/
inductive Fault where
  /-- Raised by `State.loadFile` alone, for "a file shorter than 2 bytes" (R175): "simulation never begins". Safe:
  the spec says that no run exists then. -/
  | loadError
deriving DecidableEq, Repr

/-- Why an outcome is refused. No step of CORE refuses (R67, R98); only loading can. -/
inductive Refusal where
  /-- Raised by an arm of `exec` whose instruction has no meaning yet; no arm does. Safe: nothing is claimed of it. -/
  | notModelled (mnemonic : String)
  /-- Raised by `State.load` for "an image that would write any of the five device-register addresses", which "a
  model refuses" (R174). Safe: no launch, no claim. -/
  | imageCoversDevice
  /-- Raised by `State.loadFile` for a file of odd length, whose last byte the source does not describe (R175, U14
  of 93_implementation_defined.md). Safe: no launch, no claim. -/
  | oddImage
deriving DecidableEq, Repr

/-- The outcome of an instruction, a step or a load. -/
abbrev Result := Host.Outcome State Fault Refusal

/-- The memory after reset: zero but for the ready bits of DSR and CLK (R26; bits 14:0 are the spec's decision D4,
log entry 11). -/
def State.resetMem (c : Config) : Memory :=
  Memory.write (Memory.write Memory.empty c.dsrAddr 0x8000#16) c.clkAddr 0x8000#16

/-- Reset of a machine with parameters `c` (R26, R170). `CC = Z` is the spec's decision D3 (log entry 10). The ports
stand at the beginning of the host's input and output (DESIGN CHOICE, log entries 4 to 6). -/
def State.resetWith (c : Config) : State where
  cfg := c
  regs := Vector.replicate 8 0x0000#16
  pc := 0x0000#16
  ir := 0x0000#16
  cc := .z
  mem := State.resetMem c
  pred := c.predInit
  input := { answers := [], exhausted := false, polls := 0 }
  output := { answers := [], writes := 0 }
  log := []

/-- The machine right after reset (R26), with the parameters of R3. -/
def State.reset : State := State.resetWith Config.default

end Sys2Proof.Machine
end

