-- ==== Sys2Proof/Machine/Ops.lean ====
section
/-! DEFINITION. The named operations over registers, memory, devices and ports that the instructions share: the
pseudocode primitives of spec/00_scope.md rule R7, the memory interface of spec/20_memory.md, fetch and trace of
spec/40_instruction_cycle.md, and the trap entry of spec/60_exceptions.md rule R143. -/

namespace Sys2Proof.Machine

/-! ### Registers -/

/-- `x[r]`: "never fails" (R7, R10). -/
def State.reg (s : State) (r : Reg) : Word := s.regs[r.toNat]

/-- `x[r] <- v`; the condition code is not touched (R12). -/
def State.setReg (s : State) (r : Reg) (v : Word) : State := { s with regs := s.regs.set r.toNat v }

/-- `CC <- c`. -/
def State.setCC (s : State) (c : CC) : State := { s with cc := c }

/-- `pc <- a` (R13). -/
def State.setPc (s : State) (a : Word) : State := { s with pc := a }

/-- `IR <- w` (R14). -/
def State.setIr (s : State) (w : Word) : State := { s with ir := w }

/-- `pred <- q` (R193). -/
def State.setPred (s : State) (q : Pred) : State := { s with pred := q }

/-- `WriteRegCC(r, v)` (R12): "single write entry point that also updates condition code". -/
def State.writeRegCC (s : State) (r : Reg) (v : Word) : State := (s.setReg r v).setCC (ccOf v)

/-- The link register, register 7 (R11, R124). -/
def linkReg : Reg := 7#3

/-- The link write `x[7] <- pc` of JSR, JSRR and TRAP, without the condition code (R12; UNVERIFIED: the spec's
decision D5 on conflict C1, log entry 12). -/
def State.link (s : State) : State := s.setReg linkReg s.pc

/-! ### Storage and ports -/

/-- `M[a]`, the storage word, with no device semantics (R7, R30). -/
def State.word (s : State) (a : Word) : Word := Memory.read s.mem a

/-- `M[a] <- v`, with no device semantics (R7, R30). -/
def State.setWord (s : State) (a v : Word) : State := { s with mem := Memory.write s.mem a v }

/-- A port call enters the sequence of port calls (R97). -/
def State.call (s : State) (c : PortCall) : State := { s with log := c :: s.log }

/-- The run condition: bit 15 of `M[CLK_ADDR]`, read directly (R90; the spec's decision D22, log entry 27). -/
def State.running (s : State) : Bool := (s.word s.cfg.clkAddr).getLsbD 15

/-- `M[CLK_ADDR] <- M[CLK_ADDR] & 0x7FFF` (R35, R147). -/
def State.clearRun (s : State) : State := s.setWord s.cfg.clkAddr (s.word s.cfg.clkAddr &&& 0x7FFF#16)

/-- `InPoll()`: the answer, and the state with the poll consumed and logged (R150). -/
def State.inPoll (s : State) : InAnswer × State :=
  (s.input.next, State.call { s with input := s.input.afterPoll } (.inPoll s.input.next))

/-- `OutWrite(bytes)`: the answer, and the state with the write answered and logged (R151). -/
def State.outWrite (s : State) (bytes : List Byte) : OutAnswer × State :=
  (s.output.next, State.call { s with output := s.output.afterWrite } (.outWrite bytes s.output.next))

/-- What one poll answer does in a KBSR read: the value read and the state (R35). UNVERIFIED parts: the policy on
exhaustion is the spec's decision D14 (log entry 21), the value's bits 14:0 its D27 (log entry 29). -/
def State.kbsrAnswer (s : State) : InAnswer → Word × State
  | .byte b => (0x8000#16, s.setWord s.cfg.kbdrAddr (zext b))
  | .empty => (0x0000#16, s)
  | .exhausted => (0x0000#16, s.clearRun.call (.diag .moreInputRequired))
  | .cancelled => (0x0000#16, s.clearRun.call (.diag .userCancelled))

/-- `KbsrRead()`: one poll, made on every read (R35; the spec's decision D11, log entry 18). -/
def State.kbsrRead (s : State) : Word × State := s.inPoll.2.kbsrAnswer s.inPoll.1

/-- `KbdrRead()`: the latch, cleared only if KBDR_READ_CLEARS (R37; the spec's decision D11, log entry 18). -/
def State.kbdrRead (s : State) : Word × State :=
  (s.word s.cfg.kbdrAddr,
    if s.cfg.kbdrReadClears then s.setWord s.cfg.kbdrAddr 0x0000#16 else s)

/-- The bytes a DDR write of `b` forwards: a line feed 0x0A to a terminal sink goes as 0x0D, 0x0A (R41; the value
0x0D and the one call for both are the spec's, K5 and D13, UNVERIFIED, log entry 20). -/
def ddrBytes (terminal : Bool) (b : Byte) : List Byte :=
  if terminal ∧ b = 0x0A#8 then [0x0D#8, 0x0A#8] else [b]

/-- DSR after an output answer (R41; UNVERIFIED: the spec's decision D12 on conflict C2, log entry 19). -/
def dsrAfter : OutAnswer → Word
  | .ok => 0x8000#16
  | .fail => 0x0000#16

/-- `DdrWrite(v)` (R41). -/
def State.ddrWrite (s : State) (v : Word) : State :=
  let r := s.outWrite (ddrBytes s.cfg.sinkIsTerminal (bits 0 8 v))
  (r.2.setWord s.cfg.ddrAddr 0x0000#16).setWord s.cfg.dsrAddr (dsrAfter r.1)

/-- `MemRead(a)`: the word read and the state after the device's side effects (R33). -/
def State.memRead (s : State) (a : Word) : Word × State :=
  if a = s.cfg.kbsrAddr then s.kbsrRead
  else if a = s.cfg.kbdrAddr then s.kbdrRead
  else if a = s.cfg.ddrAddr then (0x0000#16, s)
  else (s.word a, s)

/-- `MemWrite(a, v)` (R34). A write to KBSR is ignored by the spec's decision D10 (UNVERIFIED, log entry 17). -/
def State.memWrite (s : State) (a v : Word) : State :=
  if a = s.cfg.ddrAddr then s.ddrWrite v
  else if a = s.cfg.kbsrAddr ∨ a = s.cfg.kbdrAddr ∨ a = s.cfg.dsrAddr then s
  else s.setWord a v

/-! ### The shared parts of a cycle -/

/-- `Fetch()`: IR <- MemRead(pc), then pc <- pc + 1, wrapping (R92). -/
def State.fetch (s : State) : State :=
  let r := s.memRead s.pc
  (r.2.setIr r.1).setPc (s.pc + 1)

/-- Trap entry (R143): the incremented PC is saved in register 7, nothing else, and control goes to the address in
the vector table word `zext_16(vect8)`, read through MemRead (R130). There is no other trap or exception (R140),
and no return from trap with an effect: RTI is a no-op, a routine returns with JMP R7 (R144). -/
def State.trapEntry (s : State) (vect : BitVec 8) : State :=
  let r := s.link.memRead (zext vect)
  r.2.setPc r.1

/-- The trace filter `wants(op, pc)` (R155): bit `op` of the mask, the bit of weight 2^op (conflict C6). -/
def wants (c : Config) (op : BitVec 4) (pc : Word) : Bool :=
  c.traceEnabled && (!c.traceUserOnly || decide (0x3000 ≤ pc.toNat)) && c.traceMask.getLsbD op.toNat

/-- The snapshot of the trace port: the values after the execute step (R95, R155). -/
def State.traceRecord (s : State) : TraceRecord where
  ir := s.ir
  regs := s.regs
  pc := s.pc
  cc := s.cc

/-- The port calls of the trace step (R95), made with the PC as it stands after the execute step (UNVERIFIED: the
spec's decision D17, log entry 24). -/
def State.traceCalls (s : State) : List PortCall :=
  if wants s.cfg (bits 12 4 s.ir) s.pc then [.traceEmit s.traceRecord] else []

/-- `TraceStep()`: "changes no state of CORE" (R95), only the sequence of port calls. -/
def State.traceStep (s : State) : State := { s with log := s.traceCalls ++ s.log }

/-- The bytes the sink holds after the port calls made so far (R151). -/
def State.sink (s : State) : List Byte := s.log.reverse.flatMap PortCall.sent

/-! ### The host's move -/

/-- The host's halt request between two cycles (R147; the spec's decision D25, log entry 8). -/
def State.hostHalt (s : State) : State := s.clearRun

end Sys2Proof.Machine
end

