-- ==== Sys2Proof/Machine/Operands.lean ====
section
/-! DEFINITION. The operand forms: the three address computations of spec/42_load_store.md rule R117, and the target
computation of the PC-relative control transfers. Additions wrap modulo 65536 (R6). The second operand of ADD and
AND (spec/41_operate.md rule R104) is a register read (`State.reg`) or the immediate word itself. -/

namespace Sys2Proof.Machine

/-- `EA_pc(off) = pc + off`, with the incremented PC (R117). -/
def State.eaPc (s : State) (off : Word) : Word := s.pc + off

/-- `EA_base(base, off) = x[base] + off` (R117). -/
def State.eaBase (s : State) (base : Reg) (off : Word) : Word := s.reg base + off

/-- `EA_ind(off) = MemRead(pc + off)`: the pointer word, and the state after reading it (R117). -/
def State.eaInd (s : State) (off : Word) : Word × State := s.memRead (s.eaPc off)

end Sys2Proof.Machine
end

