-- ==== Sys2Proof/Machine/Control.lean ====
section
/-! DEFINITION. Control transfer: spec/43_control.md. -/

namespace Sys2Proof.Machine

/-- BR (R120): the PC moves when the mask bit of the condition code is set; a wired predictor observes the outcome
(R193). -/
def execBr (n z p : Bool) (off : Word) (s : State) : Result :=
  let taken := branchTaken n z p s.cc
  let t := s.setPc (if taken then s.eaPc off else s.pc)
  .next (t.setPred (if s.cfg.predictorWired then predUpdate s.pred taken else s.pred))

/-- JMP (R121; UNVERIFIED: the spec's decision D9, log entry 16). RET is JMP R7. -/
def execJmp (base : Reg) (s : State) : Result :=
  .next (s.setPc (s.reg base))

/-- JSR (R122). -/
def execJsr (off : Word) (s : State) : Result :=
  .next (s.link.setPc (s.eaPc off))

/-- JSRR (R123): the base register is read before register 7 is written (UNVERIFIED: the spec's decision D6, log
entry 13). -/
def execJsrr (base : Reg) (s : State) : Result :=
  .next (s.link.setPc (s.reg base))

end Sys2Proof.Machine
end

