-- ==== Sys2Proof/Machine/LoadStore.lean ====
section
/-! DEFINITION. Loads and stores: spec/42_load_store.md. What each mnemonic does beyond its fields is marked in the
spec as general knowledge, its decision D9 (UNVERIFIED, log entry 16). -/

namespace Sys2Proof.Machine

/-- The last act of LD, LDI and LDR: `v <- MemRead(a); WriteRegCC(dr, v)`. -/
def State.loadFrom (s : State) (dr : Reg) (a : Word) : State :=
  let r := s.memRead a
  r.2.writeRegCC dr r.1

/-- LD (R110). -/
def execLd (dr : Reg) (off : Word) (s : State) : Result :=
  .next (s.loadFrom dr (s.eaPc off))

/-- LDI: the pointer read, then the data read (R111). -/
def execLdi (dr : Reg) (off : Word) (s : State) : Result :=
  let p := s.eaInd off
  .next (p.2.loadFrom dr p.1)

/-- LDR: the base is read before the destination is written (R112). -/
def execLdr (dr base : Reg) (off : Word) (s : State) : Result :=
  .next (s.loadFrom dr (s.eaBase base off))

/-- LEA: the address itself, no memory access; the condition code is set (R113). -/
def execLea (dr : Reg) (off : Word) (s : State) : Result :=
  .next (s.writeRegCC dr (s.eaPc off))

/-- ST (R114). -/
def execSt (sr : Reg) (off : Word) (s : State) : Result :=
  .next (s.memWrite (s.eaPc off) (s.reg sr))

/-- STI: the pointer read, then the write (R115). -/
def execSti (sr : Reg) (off : Word) (s : State) : Result :=
  let p := s.eaInd off
  .next (p.2.memWrite p.1 (s.reg sr))

/-- STR (R116). -/
def execStr (sr base : Reg) (off : Word) (s : State) : Result :=
  .next (s.memWrite (s.eaBase base off) (s.reg sr))

end Sys2Proof.Machine
end

