-- ==== Sys2Proof/Machine/Operate.lean ====
section
/-! DEFINITION. The operate instructions: spec/41_operate.md. -/

namespace Sys2Proof.Machine

/-- ADD, register form (R100, R104). -/
def execAddReg (dr sr1 sr2 : Reg) (s : State) : Result :=
  .next (s.writeRegCC dr (s.reg sr1 + s.reg sr2))

/-- ADD, immediate form (R100, R104). -/
def execAddImm (dr sr1 : Reg) (imm : Word) (s : State) : Result :=
  .next (s.writeRegCC dr (s.reg sr1 + imm))

/-- AND, register form (R101, R104). -/
def execAndReg (dr sr1 sr2 : Reg) (s : State) : Result :=
  .next (s.writeRegCC dr (s.reg sr1 &&& s.reg sr2))

/-- AND, immediate form (R101, R104). -/
def execAndImm (dr sr1 : Reg) (imm : Word) (s : State) : Result :=
  .next (s.writeRegCC dr (s.reg sr1 &&& imm))

/-- NOT, the bitwise complement (R102; UNVERIFIED: the spec's decision D9, log entry 16). -/
def execNot (dr sr : Reg) (s : State) : Result :=
  .next (s.writeRegCC dr (~~~ s.reg sr))

end Sys2Proof.Machine
end

