-- ==== Sys2Proof/Machine/System.lean ====
section
/-! DEFINITION. System instructions: spec/44_system.md. -/

namespace Sys2Proof.Machine

/-- TRAP (R130): the trap entry of R143. -/
def execTrap (vect : BitVec 8) (s : State) : Result := .next (s.trapEntry vect)

/-- RTI: "no-ops (this simulator models no privileged execution)" (R131). -/
def execRti (s : State) : Result := .next s

/-- RESERVED: "the reserved opcode decodes to an explicit no-op rather than erroring" (R132). `low12` is not used. -/
def execReserved (_low12 : BitVec 12) (s : State) : Result := .next s

end Sys2Proof.Machine
end

