-- ==== Sys2Proof/Machine/Step.lean ====
section
/-! DEFINITION. One turn of the run loop: spec/40_instruction_cycle.md rules R90 and R91. -/

namespace Sys2Proof.Machine

/-- The trace step after an execute step that answered a next state (R91, R95). -/
def traced : Result → Result
  | .next t => .next t.traceStep
  | .fault r => .fault r
  | .refused r => .refused r

/-- `Cycle()`: fetch, decode, execute, trace (R91). -/
def cycle (s : State) : Result := traced (exec (decode s.fetch.ir) s.fetch)

/-- One turn of the run loop (R90): a cycle while bit 15 of `M[CLK_ADDR]` is 1. A halted machine does nothing more
and keeps all its state (R97, R149); that this is an unchanged next state is a DESIGN CHOICE (log entry 7). -/
def step (s : State) : Host.Outcome State Fault Refusal :=
  if s.running then cycle s else .next s

/-- `s` with the word `w` stored where the next fetch reads it, `M[pc]` (R92); bits above `nbits` are 0. It is the
fetched word at every PC but KBSR_ADDR and DDR_ADDR, whose reads do not return storage (R35, R42; log entry 31). -/
def State.withFetchWord (s : State) (nbits w : Nat) : State :=
  s.setWord s.pc (BitVec.ofNat 16 (w % 2 ^ nbits))

end Sys2Proof.Machine
end

