-- ==== Sys2Proof/Machine/Launch.lean ====
section
/-! DEFINITION. What the host does before a run: the load port and the start, spec/70_reset_and_hazards.md rules R172
to R176. -/

namespace Sys2Proof.Machine

/-- An image is a load origin and its words (R174). -/
abbrev Image := Word × List Word

/-- The addresses `Load(origin, words)` writes: consecutive from the origin, wrapping modulo 65536 (R174). -/
def imageAddrs (origin : Word) : List Word → List Word
  | [] => []
  | _ :: rest => origin :: imageAddrs (origin + 1) rest

/-- `M[(origin + j) mod 65536] <- words[j]`, for j from 0 up, straight into the storage array (R174). -/
def State.storeImage (s : State) (origin : Word) : List Word → State
  | [] => s
  | w :: rest => State.storeImage (s.setWord origin w) (origin + 1) rest

/-- `Load(origin, words)`; an image over a device-register address is refused (R174; the spec's decision D16, log
entry 23). -/
def State.load (s : State) (image : Image) : Result :=
  if (imageAddrs image.1 image.2).any s.cfg.isDevice then .refused .imageCoversDevice
  else .next (s.storeImage image.1 image.2)

/-- The loads of a launch, in order; "later loads may overwrite earlier ones" (R173). -/
def State.loadAll (s : State) : List Image → Result
  | [] => .next s
  | image :: rest =>
    match s.load image with
    | .next t => State.loadAll t rest
    | .fault r => .fault r
    | .refused r => .refused r

/-- The big-endian words of a file's bytes (R54, R175); a last odd byte is left over and reported as none. -/
def fileWords : List Byte → Option (List Word)
  | [] => some []
  | [_] => none
  | hi :: lo :: rest => (fileWords rest).map (fun ws => (hi ++ lo) :: ws)

/-- Loading an object file (R175): under 2 bytes is a load error, an odd length is refused (U14, log entry 30), word
0 is the origin and the words after it are the image. -/
def State.loadFile (s : State) (bytes : List Byte) : Result :=
  if bytes.length < 2 then .fault .loadError
  else match fileWords bytes with
    | some (origin :: words) => s.load (origin, words)
    | _ => .refused .oddImage

/-- Starting: `pc <- START_PC` (R176). -/
def State.start (s : State) : State := s.setPc s.cfg.startPc

/-- The launch of R172: reset, the loads in order, the start. -/
def launch (c : Config) (images : List Image) : Result :=
  match (State.resetWith c).loadAll images with
  | .next t => .next t.start
  | .fault r => .fault r
  | .refused r => .refused r

end Sys2Proof.Machine
end

