-- ==== Sys2Proof/Safety.lean ====
section
/-! DEFINITION. The terms the claims use: what counts as a legal state (spec/10_state.md rule R27), what the agents can
do (spec/60_exceptions.md rule R153), and the frame predicates: what a move leaves unchanged. -/

namespace Sys2Proof.Machine

/-! ### The invariant and the runs -/

/-- The invariant of R27, with the distinct device addresses of R3 and the canonical form of the storage array. That
CC is one of N, Z, P holds by its type. -/
structure Inv (s : State) : Prop where
  /-- "The five addresses must be pairwise distinct." (R3) -/
  distinct : s.cfg.Distinct
  /-- the storage array is in canonical form (log entry 9) -/
  memWf : s.mem.wf = true
  /-- `M[DDR_ADDR] = 0x0000` -/
  ddr : s.word s.cfg.ddrAddr = 0x0000#16
  /-- `M[DSR_ADDR]` is `0x8000` or `0x0000` -/
  dsr : s.word s.cfg.dsrAddr = 0x8000#16 ∨ s.word s.cfg.dsrAddr = 0x0000#16
  /-- `M[KBDR_ADDR]` is in `0x0000` to `0x00FF` -/
  kbdr : (s.word s.cfg.kbdrAddr).toNat ≤ 0x00FF

/-- What can happen at a cycle boundary while CORE runs (R153): a cycle, or the host's halt request. -/
inductive Move : State → State → Prop where
  | cycle (s t : State) (running : s.running = true) (h : step s = .next t) : Move s t
  | hostHalt (s : State) : Move s s.hostHalt

/-- The states a launch and then moves lead to. -/
inductive Reachable (c : Config) (images : List Image) : State → Prop where
  | launched (s : State) (h : launch c images = .next s) : Reachable c images s
  | moved (s t : State) (h : Reachable c images s) (m : Move s t) : Reachable c images t

/-! ### What an instruction is, as far as its effects go -/

/-- The register an instruction writes (the table of R12); the link writes go to register 7. -/
def destOf : Instr → Option Reg
  | .br _ _ _ _ => none
  | .addReg dr _ _ => some dr
  | .addImm dr _ _ => some dr
  | .ld dr _ => some dr
  | .st _ _ => none
  | .jsr _ => some linkReg
  | .jsrr _ => some linkReg
  | .andReg dr _ _ => some dr
  | .andImm dr _ _ => some dr
  | .ldr dr _ _ => some dr
  | .str _ _ _ => none
  | .rti => none
  | .not dr _ => some dr
  | .ldi dr _ => some dr
  | .sti _ _ => none
  | .jmp _ => none
  | .reserved _ => none
  | .lea dr _ => some dr
  | .trap _ => some linkReg

/-- Whether an instruction updates the condition code: "ADD, AND, NOT, LD, LDI, LDR, LEA" and no other (R12, R17). -/
def setsCC : Instr → Bool
  | .br _ _ _ _ => false
  | .addReg _ _ _ => true
  | .addImm _ _ _ => true
  | .ld _ _ => true
  | .st _ _ => false
  | .jsr _ => false
  | .jsrr _ => false
  | .andReg _ _ _ => true
  | .andImm _ _ _ => true
  | .ldr _ _ _ => true
  | .str _ _ _ => false
  | .rti => false
  | .not _ _ => true
  | .ldi _ _ => true
  | .sti _ _ => false
  | .jmp _ => false
  | .reserved _ => false
  | .lea _ _ => true
  | .trap _ => false

/-- The address and the word of an instruction's data write, in the state after the fetch (R46, R114 to R116). -/
def storeOf (s : State) : Instr → Option (Word × Word)
  | .br _ _ _ _ => none
  | .addReg _ _ _ => none
  | .addImm _ _ _ => none
  | .ld _ _ => none
  | .st sr off => some (s.eaPc off, s.reg sr)
  | .jsr _ => none
  | .jsrr _ => none
  | .andReg _ _ _ => none
  | .andImm _ _ _ => none
  | .ldr _ _ _ => none
  | .str sr base off => some (s.eaBase base off, s.reg sr)
  | .rti => none
  | .not _ _ => none
  | .ldi _ _ => none
  | .sti sr off => some ((s.eaInd off).1, s.reg sr)
  | .jmp _ => none
  | .reserved _ => none
  | .lea _ _ => none
  | .trap _ => none

/-- Any number of steps of a running machine, none of which makes a data write to `a`. -/
inductive RunsWithoutStoreTo (a : Word) : State → State → Prop where
  | refl (s : State) : RunsWithoutStoreTo a s s
  | step (s t u : State) (running : s.running = true) (h : step s = .next t)
      (noStore : ∀ v, storeOf s.fetch (decode s.fetch.ir) ≠ some (a, v)) (rest : RunsWithoutStoreTo a t u) :
      RunsWithoutStoreTo a s u

/-- Whether an instruction makes no data access: "ADD, AND, NOT, LEA, BR, JMP, JSR, JSRR, RTI and RESERVED" (R46). -/
def noDataAccess : Instr → Bool
  | .br _ _ _ _ => true
  | .addReg _ _ _ => true
  | .addImm _ _ _ => true
  | .ld _ _ => false
  | .st _ _ => false
  | .jsr _ => true
  | .jsrr _ => true
  | .andReg _ _ _ => true
  | .andImm _ _ _ => true
  | .ldr _ _ _ => false
  | .str _ _ _ => false
  | .rti => true
  | .not _ _ => true
  | .ldi _ _ => false
  | .sti _ _ => false
  | .jmp _ => true
  | .reserved _ => true
  | .lea _ _ => true
  | .trap _ => false

/-! ### Frames -/

/-- Every word of the storage array reads as before. -/
def SameMemory (s t : State) : Prop := ∀ a : Word, t.word a = s.word a

/-- No port was called: the host's answers and the sequence of port calls are as before. -/
def SamePorts (s t : State) : Prop := t.input = s.input ∧ t.output = s.output ∧ t.log = s.log

/-- Every general register but those named reads as before. -/
def SameRegsBut (changed : List Reg) (s t : State) : Prop := ∀ r : Reg, r ∉ changed → t.reg r = s.reg r

/-- Registers, PC, IR, condition code, predictor and parameters are as before. -/
structure SameCpu (s t : State) : Prop where
  regs : SameRegsBut [] s t
  pc : t.pc = s.pc
  ir : t.ir = s.ir
  cc : t.cc = s.cc
  pred : t.pred = s.pred
  cfg : t.cfg = s.cfg

/-- Memory, ports, IR and parameters are as before. -/
structure Quiet (s t : State) : Prop where
  ir : t.ir = s.ir
  cfg : t.cfg = s.cfg
  mem : SameMemory s t
  ports : SamePorts s t

/-- The condition code describes the word `v` as a signed number (R16). -/
structure CcDescribes (c : CC) (v : Word) : Prop where
  zero : c = .z ↔ v.toNat = 0
  negative : c = .n ↔ 0x8000 ≤ v.toNat
  positive : c = .p ↔ 0 < v.toNat ∧ v.toNat < 0x8000

/-- `t` is `s` with register `dr` and the condition code written for `v`, and nothing else changed. -/
structure WritesReg (s t : State) (dr : Reg) (v : Word) : Prop where
  dest : t.reg dr = v
  others : SameRegsBut [dr] s t
  cc : CcDescribes t.cc v
  pc : t.pc = s.pc
  pred : t.pred = s.pred
  quiet : Quiet s t

/-- `t` is `s` after a data read of `a` into `dr`, with the condition code of the word read. Memory and ports are as
the read of `a` leaves them; for a word with no read side effect they are as before. -/
structure LoadsFrom (s t : State) (dr : Reg) (a : Word) : Prop where
  dest : t.reg dr = (s.memRead a).1
  others : SameRegsBut [dr] s t
  cc : CcDescribes t.cc (t.reg dr)
  pc : t.pc = s.pc
  ir : t.ir = s.ir
  pred : t.pred = s.pred
  cfg : t.cfg = s.cfg
  mem : SameMemory (s.memRead a).2 t
  ports : SamePorts (s.memRead a).2 t
  plain : a ≠ s.cfg.kbsrAddr → a ≠ s.cfg.kbdrAddr → a ≠ s.cfg.ddrAddr →
    t.reg dr = s.word a ∧ SameMemory s t ∧ SamePorts s t

/-- `t` is `s` after a data write of `v` to `a`: by class of address, every word of memory and every port. -/
structure StoresTo (s t : State) (a v : Word) : Prop where
  cpu : SameCpu s t
  input : t.input = s.input
  stored : a ≠ s.cfg.ddrAddr → a ≠ s.cfg.kbsrAddr → a ≠ s.cfg.kbdrAddr → a ≠ s.cfg.dsrAddr →
    t.word a = v ∧ (∀ b, b ≠ a → t.word b = s.word b) ∧ SamePorts s t
  ignored : a ≠ s.cfg.ddrAddr → (a = s.cfg.kbsrAddr ∨ a = s.cfg.kbdrAddr ∨ a = s.cfg.dsrAddr) →
    SameMemory s t ∧ SamePorts s t
  display : a = s.cfg.ddrAddr → s.cfg.dsrAddr ≠ s.cfg.ddrAddr →
    t.word s.cfg.ddrAddr = 0x0000#16 ∧ t.word s.cfg.dsrAddr = dsrAfter s.output.next ∧
    (∀ b, b ≠ s.cfg.ddrAddr → b ≠ s.cfg.dsrAddr → t.word b = s.word b) ∧
    t.output = s.output.afterWrite ∧
    t.log = .outWrite (ddrBytes s.cfg.sinkIsTerminal (bits 0 8 v)) s.output.next :: s.log

/-! ### An independent reading of the decode table -/

/-- The `w`-bit field that starts at bit `lo`, as a number (R6). -/
def fieldNat (word : Word) (lo w : Nat) : Nat := word.toNat / 2 ^ lo % 2 ^ w

/-- R64 in numbers: `f`, or `f + (65536 - 2^w)` when the top bit of the field is set. -/
def sextNat (w f : Nat) : Word :=
  BitVec.ofNat 16 (if f < 2 ^ (w - 1) then f else f + (65536 - 2 ^ w))

/-- The decode table R67, field by field in numbers. -/
def decodeByTable (word : Word) : Instr :=
  let r (lo : Nat) : Reg := BitVec.ofNat 3 (fieldNat word lo 3)
  let b (lo : Nat) : Bool := fieldNat word lo 1 == 1
  let off (w : Nat) : Word := sextNat w (fieldNat word 0 w)
  match fieldNat word 12 4 with
  | 0 => .br (b 11) (b 10) (b 9) (off 9)
  | 1 => if b 5 then .addImm (r 9) (r 6) (off 5) else .addReg (r 9) (r 6) (r 0)
  | 2 => .ld (r 9) (off 9)
  | 3 => .st (r 9) (off 9)
  | 4 => if b 11 then .jsr (off 11) else .jsrr (r 6)
  | 5 => if b 5 then .andImm (r 9) (r 6) (off 5) else .andReg (r 9) (r 6) (r 0)
  | 6 => .ldr (r 9) (r 6) (off 6)
  | 7 => .str (r 9) (r 6) (off 6)
  | 8 => .rti
  | 9 => .not (r 9) (r 6)
  | 10 => .ldi (r 9) (off 9)
  | 11 => .sti (r 9) (off 9)
  | 12 => .jmp (r 6)
  | 13 => .reserved (BitVec.ofNat 12 (fieldNat word 0 12))
  | 14 => .lea (r 9) (off 9)
  | _ => .trap (BitVec.ofNat 8 (fieldNat word 0 8))

end Sys2Proof.Machine
end

