-- ==== Sys2Proof/Certificates/Slice0/Obligations.lean ====
section
/-! DEFINITION. The statements for the provers. Each docstring names the rule of spec/ or the section it formalises;
where a clause rests on a decision of the spec or of the model, it says so. `s` in a statement about `exec` is the
state after the fetch step, so `s.pc` is the incremented PC (spec/10_state.md rule R13). -/

open Sys2Proof Sys2Proof.Machine

/-! ### The codec -/

/-- spec/30_encoding.md section 4, round-trip law 3 (marked derived there): every operand of every instruction survives
encoding and decoding. The positions are the table R63, decision D7 (log entry 14). -/
def Obligations.DecodeOfEncode : Prop :=
  ∀ i : Instr, i.wellFormed = true → decode (encode i) = i

/-- spec/30_encoding.md section 4, round-trip laws 1, 2 and 4: every word decodes to canonical fields, a canonical word
encodes back to itself, and any other word to the canonical word with the same fields. Which words are canonical is
decision D8 (log entry 15). -/
def Obligations.EncodeOfDecode : Prop :=
  (∀ w : Word, (∃ i : Instr, i.wellFormed = true ∧ encode i = w) → encode (decode w) = w) ∧
  ∀ w : Word, (decode w).wellFormed = true ∧ decode (encode (decode w)) = decode w ∧
    encode (decode w) &&& usedBits w = w &&& usedBits w

/-- spec/30_encoding.md section 3, unused bits: two words that agree on the bits the format uses decode alike. The
positions are decision D7 (log entry 14). -/
def Obligations.DecodeIgnoresUnusedBits : Prop :=
  ∀ v w : Word, v &&& usedBits w = w &&& usedBits w → decode v = decode w

/-- spec/30_encoding.md section 3, the decode table, field by field in numbers. The positions and polarities are
decision D7 (log entry 14). -/
def Obligations.DecodeMatchesTable : Prop :=
  ∀ w : Word, decode w = decodeByTable w

/-- A few words of spec/95_test_vectors.md, one per family, decode to the instruction they stand for. Positions and
polarities that most of them use are decision D7 (log entry 14). -/
def Obligations.SpecWordsDecode : Prop :=
  decode 0x14C4#16 = .addReg 2#3 3#3 4#3 ∧ decode 0x5070#16 = .andImm 0#3 1#3 0xFFF0#16 ∧
  decode 0x92BF#16 = .not 1#3 2#3 ∧ decode 0x62BF#16 = .ldr 1#3 2#3 0xFFFF#16 ∧
  decode 0xB200#16 = .sti 1#3 0x0000#16 ∧ decode 0x0BFE#16 = .br true false true 0xFFFE#16 ∧
  decode 0x4C00#16 = .jsr 0xFC00#16 ∧ decode 0x46FF#16 = .jsrr 3#3 ∧ decode 0xC1C0#16 = .jmp 7#3 ∧
  decode 0xF025#16 = .trap 0x25#8 ∧ decode 0x8FFF#16 = .rti ∧ decode 0xDABC#16 = .reserved 0xABC#12

/-- R64: the extended field is the two's-complement value of the field, in the ranges of the widths, equal to the shift
form, with D0's examples; offsets are not scaled. -/
def Obligations.SignExtension : Prop :=
  (∀ w ∈ [5, 6, 9, 11], ∀ f : BitVec w,
    (sext f).toInt = (if f.toNat < 2 ^ (w - 1) then (f.toNat : Int) else (f.toNat : Int) - 2 ^ w) ∧
    (sext f).toNat = (if f.getLsbD (w - 1) then f.toNat + (65536 - 2 ^ w) else f.toNat) ∧
    sext f = (f.setWidth 16 <<< (16 - w)).sshiftRight (16 - w) ∧
    -(2 ^ (w - 1) : Int) ≤ (sext f).toInt ∧ (sext f).toInt ≤ 2 ^ (w - 1) - 1) ∧
  sext 0x1FF#9 = 0xFFFF#16 ∧ sext 0x100#9 = 0xFF00#16 ∧ sext 0x0FF#9 = 0x00FF#16 ∧
  (∀ (s : State) (off : Word), s.eaPc off = s.pc + off) ∧
  ∀ (s : State) (base : Reg) (off : Word), s.eaBase base off = s.reg base + off

/-! ### The condition code, reset and the invariant -/

/-- R16. -/
def Obligations.ConditionCodeOf : Prop :=
  ∀ v : Word,
    (ccOf v = .z ↔ v = 0x0000#16) ∧
    (ccOf v = .n ↔ v.getLsbD 15 = true ∧ v ≠ 0x0000#16) ∧
    (ccOf v = .p ↔ v.getLsbD 15 = false ∧ v ≠ 0x0000#16)

/-- spec/10_state.md section 7, the reset table, for every setting of the parameters. CC = Z is decision D3 and the low
bits of CLK and DSR are decision D4 (log entries 10 and 11); the parameters of State.reset are those of R3. -/
def Obligations.ResetState : Prop :=
  (∀ c : Config,
    (State.resetWith c).cfg = c ∧ (∀ r : Reg, (State.resetWith c).reg r = 0x0000#16) ∧
    (State.resetWith c).pc = 0x0000#16 ∧ (State.resetWith c).ir = 0x0000#16 ∧ (State.resetWith c).cc = .z ∧
    (State.resetWith c).pred = c.predInit ∧ (State.resetWith c).log = [] ∧ (State.resetWith c).running = true ∧
    ∀ a : Word, (State.resetWith c).word a =
      if a = c.dsrAddr ∨ a = c.clkAddr then 0x8000#16 else 0x0000#16) ∧
  State.reset = State.resetWith Config.default

/-- The invariant holds at reset, for every legal setting of the parameters and for those of R3. -/
def Obligations.InvAtReset : Prop :=
  (∀ c : Config, c.Distinct → Inv (State.resetWith c)) ∧ Inv State.reset

/-- spec/10_state.md section 7, the invariants (marked derived there): every step keeps them, from any state that has
them. -/
def Obligations.InvKeptByStep : Prop :=
  ∀ s t : State, Inv s → step s = .next t → Inv t

/-- The same for what the host does: the halt request, a load that is accepted, the start. -/
def Obligations.InvKeptByHost : Prop :=
  ∀ s : State, Inv s → Inv s.hostHalt ∧ Inv s.start ∧
    ∀ (image : Image) (t : State), s.load image = .next t → Inv t

/-- So the invariants hold "at every point between two cycles, from reset on", whatever is launched and whenever the
host asks for a halt. -/
def Obligations.InvOfReachable : Prop :=
  ∀ (c : Config) (images : List Image) (s : State), c.Distinct → Reachable c images s → Inv s

/-! ### The cycle -/

/-- spec/40_instruction_cycle.md section 4: while running, every cycle completes and yields a next state; no instruction,
on any state, faults or is refused. The first clause also covers a halted machine, whose step is an unchanged next state
by the model's choice (log entry 7). -/
def Obligations.StepNeverStops : Prop :=
  (∀ s : State, ∃ t : State, step s = .next t) ∧ ∀ (i : Instr) (s : State), ∃ t : State, exec i s = .next t

/-- R91, R92, R93: fetch (MemRead at the PC, device rules included; IR; the incremented PC, wrapping), decode of IR,
execute, trace. And where the fetched word is the encoding of a well-formed instruction, that instruction runs. -/
def Obligations.StepRunsDecodedInstruction : Prop :=
  (∀ s t : State, s.running = true →
    exec (decode (s.memRead s.pc).1)
      { (s.memRead s.pc).2 with ir := (s.memRead s.pc).1, pc := BitVec.ofNat 16 ((s.pc.toNat + 1) % 65536) } = .next t →
    step s = .next t.traceStep) ∧
  ∀ (s t : State) (i : Instr), s.running = true → i.wellFormed = true → s.pc ≠ s.cfg.kbsrAddr →
    s.pc ≠ s.cfg.kbdrAddr → s.pc ≠ s.cfg.ddrAddr → s.word s.pc = encode i →
    exec i { s with ir := encode i, pc := BitVec.ofNat 16 ((s.pc.toNat + 1) % 65536) } = .next t →
    step s = .next t.traceStep

/-- spec/40_instruction_cycle.md section 4: after the halt nothing more happens and all state survives. That a step of
a halted machine is an unchanged next state is the model's choice (log entry 7). -/
def Obligations.HaltIsFinal : Prop :=
  ∀ (s : State) (n : Nat), s.running = false → Host.Core.run Sys2Proof.core n s = .next s

/-! ### Operate instructions -/

/-- spec/41_operate.md section 3, ADD, both forms, from the word (mode polarity and SR2 position are decision D7, log entry
14) and as an instruction: the sum modulo 65536 and its condition code in DR, nothing else; any of the registers may
coincide. -/
def Obligations.AddRule : Prop :=
  (∀ w : Word, bits 12 4 w = 0x1#4 → decode w =
    if w.getLsbD 5 then .addImm (bits 9 3 w) (bits 6 3 w) (sext (bits 0 5 w))
    else .addReg (bits 9 3 w) (bits 6 3 w) (bits 0 3 w)) ∧
  (∀ (s : State) (dr sr1 sr2 : Reg), ∃ t : State, exec (.addReg dr sr1 sr2) s = .next t ∧
    WritesReg s t dr (BitVec.ofNat 16 (((s.reg sr1).toNat + (s.reg sr2).toNat) % 65536))) ∧
  ∀ (s : State) (dr sr1 : Reg) (imm : Word), ∃ t : State, exec (.addImm dr sr1 imm) s = .next t ∧
    WritesReg s t dr (BitVec.ofNat 16 (((s.reg sr1).toNat + imm.toNat) % 65536))

/-- spec/41_operate.md section 3, AND, both forms, bit by bit (mode polarity and SR2 position are decision D7, log entry
14). -/
def Obligations.AndRule : Prop :=
  (∀ w : Word, bits 12 4 w = 0x5#4 → decode w =
    if w.getLsbD 5 then .andImm (bits 9 3 w) (bits 6 3 w) (sext (bits 0 5 w))
    else .andReg (bits 9 3 w) (bits 6 3 w) (bits 0 3 w)) ∧
  (∀ (s : State) (dr sr1 sr2 : Reg), ∃ (t : State) (v : Word), exec (.andReg dr sr1 sr2) s = .next t ∧
    WritesReg s t dr v ∧ ∀ k < 16, v.getLsbD k = ((s.reg sr1).getLsbD k && (s.reg sr2).getLsbD k)) ∧
  ∀ (s : State) (dr sr1 : Reg) (imm : Word), ∃ (t : State) (v : Word), exec (.andImm dr sr1 imm) s = .next t ∧
    WritesReg s t dr v ∧ ∀ k < 16, v.getLsbD k = ((s.reg sr1).getLsbD k && imm.getLsbD k)

/-- spec/41_operate.md section 3, NOT: the complement 0xFFFF - a (decision D9, log entry 16). -/
def Obligations.NotResult : Prop :=
  ∀ (s : State) (dr sr : Reg), ∃ t : State, exec (.not dr sr) s = .next t ∧
    WritesReg s t dr (BitVec.ofNat 16 (0xFFFF - (s.reg sr).toNat))

/-! ### Loads and stores -/

/-- spec/42_load_store.md section 2, LD (decision D9, log entry 16): the word read at pc + off. -/
def Obligations.LdResult : Prop :=
  ∀ (s : State) (dr : Reg) (off : Word), ∃ t : State, exec (.ld dr off) s = .next t ∧
    LoadsFrom s t dr (BitVec.ofNat 16 ((s.pc.toNat + off.toNat) % 65536))

/-- spec/42_load_store.md section 2, LDI (decision D9, log entry 16): the pointer is read first, then the word it names;
each read has its device effects. With both plain, DR is M[M[pc + off]] and no word and no port changes. -/
def Obligations.LdiResult : Prop :=
  ∀ (s : State) (dr : Reg) (off : Word), ∃ t : State, exec (.ldi dr off) s = .next t ∧
    LoadsFrom (s.memRead (s.pc + off)).2 t dr (s.memRead (s.pc + off)).1 ∧
    SameRegsBut [dr] s t ∧ t.pc = s.pc ∧ t.ir = s.ir ∧ t.pred = s.pred ∧ t.cfg = s.cfg ∧
    (s.cfg.isDevice (s.pc + off) = false → s.cfg.isDevice (s.word (s.pc + off)) = false →
      t.reg dr = s.word (s.word (s.pc + off)) ∧ SameMemory s t ∧ SamePorts s t)

/-- R112: LDR, from the word and as an instruction: the word read at x[BaseR] + off, the base read before DR is
written. -/
def Obligations.LdrRule : Prop :=
  (∀ w : Word, bits 12 4 w = 0x6#4 → decode w = .ldr (bits 9 3 w) (bits 6 3 w) (sext (bits 0 6 w))) ∧
  (∀ (s : State) (dr base : Reg) (off : Word), ∃ t : State, exec (.ldr dr base off) s = .next t ∧
    LoadsFrom s t dr (BitVec.ofNat 16 (((s.reg base).toNat + off.toNat) % 65536)))

/-- spec/42_load_store.md section 2, LEA (decision D9, log entry 16): the address itself, the condition code set, no
memory access. -/
def Obligations.LeaResult : Prop :=
  ∀ (s : State) (dr : Reg) (off : Word), ∃ t : State, exec (.lea dr off) s = .next t ∧
    WritesReg s t dr (BitVec.ofNat 16 ((s.pc.toNat + off.toNat) % 65536))

/-- spec/42_load_store.md section 3, ST (decision D9, log entry 16), with the frame of every class of address (StoresTo: that
a KBSR write is ignored is decision D10, DSR after the answer is D12, the bytes of a line feed are D13, log entries 17,
19, 20). -/
def Obligations.StResult : Prop :=
  ∀ (s : State) (sr : Reg) (off : Word), ∃ t : State, exec (.st sr off) s = .next t ∧
    StoresTo s t (s.eaPc off) (s.reg sr)

/-- spec/42_load_store.md section 3, STI (decision D9, log entry 16): the pointer read, then the store at the word
read. With a plain pointer word the store is to M[pc + off] in the state itself. What StoresTo says of the device registers
rests on decisions D10, D12, D13 as well (log entries 17, 19, 20). -/
def Obligations.StiResult : Prop :=
  ∀ (s : State) (sr : Reg) (off : Word), ∃ t : State, exec (.sti sr off) s = .next t ∧
    StoresTo (s.eaInd off).2 t (s.eaInd off).1 (s.reg sr) ∧ SameCpu s t ∧
    (s.cfg.isDevice (s.pc + off) = false → StoresTo s t (s.word (s.pc + off)) (s.reg sr))

/-- spec/42_load_store.md section 3, STR (decision D9, log entry 16). What StoresTo says of the device registers rests on
decisions D10, D12, D13 as well (log entries 17, 19, 20). -/
def Obligations.StrResult : Prop :=
  ∀ (s : State) (sr base : Reg) (off : Word), ∃ t : State, exec (.str sr base off) s = .next t ∧
    StoresTo s t (s.eaBase base off) (s.reg sr)

/-! ### Control transfer and system instructions -/

/-- spec/43_control.md, BR (the test is decision D9, the predictor hook decision D18; log entries 16 and 25). -/
def Obligations.BrResult : Prop :=
  ∀ (s : State) (n z p : Bool) (off : Word), ∃ t : State, exec (.br n z p off) s = .next t ∧
    ((n = true ∧ s.cc = .n) ∨ (z = true ∧ s.cc = .z) ∨ (p = true ∧ s.cc = .p) →
      t.pc = BitVec.ofNat 16 ((s.pc.toNat + off.toNat) % 65536) ∧
      t.pred = if s.cfg.predictorWired then predUpdate s.pred true else s.pred) ∧
    (¬((n = true ∧ s.cc = .n) ∨ (z = true ∧ s.cc = .z) ∨ (p = true ∧ s.cc = .p)) →
      t.pc = s.pc ∧ t.pred = if s.cfg.predictorWired then predUpdate s.pred false else s.pred) ∧
    SameRegsBut [] s t ∧ t.cc = s.cc ∧ Quiet s t

/-- spec/43_control.md, JMP (decision D9, log entry 16); register 7 is RET. -/
def Obligations.JmpResult : Prop :=
  ∀ (s : State) (base : Reg), ∃ t : State, exec (.jmp base) s = .next t ∧
    t.pc = s.reg base ∧ SameRegsBut [] s t ∧ t.cc = s.cc ∧ t.pred = s.pred ∧ Quiet s t

/-- spec/43_control.md, JSR: the link in register 7 without the condition code (decision D5, log entry 12), the target
relative to the incremented PC. -/
def Obligations.JsrResult : Prop :=
  ∀ (s : State) (off : Word), ∃ t : State, exec (.jsr off) s = .next t ∧
    t.reg 7#3 = s.pc ∧ t.pc = BitVec.ofNat 16 ((s.pc.toNat + off.toNat) % 65536) ∧
    SameRegsBut [7#3] s t ∧ t.cc = s.cc ∧ t.pred = s.pred ∧ Quiet s t

/-- spec/43_control.md, JSRR: the base register is read before register 7 is written (decision D6, log entry 13), for
every base register, 7 included; the condition code is unchanged (decision D5, log entry 12). That the target is the base
register's content is decision D9 (log entry 16). -/
def Obligations.JsrrResult : Prop :=
  ∀ (s : State) (base : Reg), ∃ t : State, exec (.jsrr base) s = .next t ∧
    t.reg 7#3 = s.pc ∧ t.pc = s.reg base ∧
    SameRegsBut [7#3] s t ∧ t.cc = s.cc ∧ t.pred = s.pred ∧ Quiet s t

/-- spec/60_exceptions.md section 3: trap entry saves the incremented PC in register 7, nothing else, and goes to the address in the vector table
word. That the link write leaves the condition code is decision D5 (log entry 12). The vector word is read as any word is, with the device effects if a device register lies there. -/
def Obligations.TrapEntry : Prop :=
  ∀ (s : State) (vect : BitVec 8), ∃ t : State, exec (.trap vect) s = .next t ∧
    t.reg 7#3 = s.pc ∧ SameRegsBut [7#3] s t ∧ t.pc = (s.memRead (BitVec.ofNat 16 vect.toNat)).1 ∧
    t.cc = s.cc ∧ t.ir = s.ir ∧ t.pred = s.pred ∧ t.cfg = s.cfg ∧
    SameMemory (s.memRead (BitVec.ofNat 16 vect.toNat)).2 t ∧ SamePorts (s.memRead (BitVec.ofNat 16 vect.toNat)).2 t ∧
    (s.cfg.isDevice (BitVec.ofNat 16 vect.toNat) = false →
      t.pc = s.word (BitVec.ofNat 16 vect.toNat) ∧ SameMemory s t ∧ SamePorts s t)

/-- spec/44_system.md, RTI, all 4096 words, does nothing, the canonical word is decision D8 (log entry 15); it is fetched, decoded and offered to the tracer as any instruction. -/
def Obligations.RtiRule : Prop :=
  (∀ w : Word, bits 12 4 w = 0x8#4 → decode w = .rti) ∧ encode .rti = 0x8000#16 ∧
  (∀ s : State, exec .rti s = .next s) ∧
  ∀ (s : State) (w : Word), bits 12 4 w = 0x8#4 → s.running = true → s.cfg.isDevice s.pc = false → s.word s.pc = w →
    step s = .next ({ s with ir := w, pc := s.pc + 1 } : State).traceStep

/-- R132: RESERVED, all 4096 words, does nothing; every word is canonical. -/
def Obligations.ReservedRule : Prop :=
  (∀ w : Word, bits 12 4 w = 0xD#4 → decode w = .reserved (bits 0 12 w) ∧ encode (decode w) = w) ∧
  (∀ (s : State) (low12 : BitVec 12), exec (.reserved low12) s = .next s) ∧
  ∀ (s : State) (w : Word), bits 12 4 w = 0xD#4 → s.running = true → s.cfg.isDevice s.pc = false → s.word s.pc = w →
    step s = .next ({ s with ir := w, pc := s.pc + 1 } : State).traceStep

/-! ### The memory interface and the devices -/

/-- R44: every address that is no device register is plain storage, for reads and for writes. -/
def Obligations.PlainStorage : Prop :=
  ∀ (s : State) (a v : Word), s.cfg.isDevice a = false →
    s.memRead a = (s.word a, s) ∧ SameCpu s (s.memWrite a v) ∧ SamePorts s (s.memWrite a v) ∧
    (∀ b : Word, (s.memWrite a v).word b = if b = a then v else s.word b) ∧
    ((s.memWrite a v).memRead a).1 = v

/-- spec/20_memory.md section 3, the KBSR read, by the answer of its one poll (decisions D11, D14, D27; log entries 18,
21, 29). -/
def Obligations.KbsrReadPolls : Prop :=
  ∀ s : State,
    SameCpu s (s.memRead s.cfg.kbsrAddr).2 ∧ (s.memRead s.cfg.kbsrAddr).2.output = s.output ∧
    (s.memRead s.cfg.kbsrAddr).2.input = s.input.afterPoll ∧
    (∀ b : Byte, s.input.next = .byte b →
      (s.memRead s.cfg.kbsrAddr).1 = 0x8000#16 ∧
      ((s.memRead s.cfg.kbsrAddr).2.word s.cfg.kbdrAddr).toNat = b.toNat ∧
      (∀ a, a ≠ s.cfg.kbdrAddr → (s.memRead s.cfg.kbsrAddr).2.word a = s.word a) ∧
      (s.memRead s.cfg.kbsrAddr).2.log = .inPoll (.byte b) :: s.log) ∧
    (s.input.next = .empty →
      (s.memRead s.cfg.kbsrAddr).1 = 0x0000#16 ∧ SameMemory s (s.memRead s.cfg.kbsrAddr).2 ∧
      (s.memRead s.cfg.kbsrAddr).2.log = .inPoll .empty :: s.log) ∧
    (∀ k : DiagKind, (s.input.next = .exhausted ∧ k = .moreInputRequired) ∨
        (s.input.next = .cancelled ∧ k = .userCancelled) →
      (s.memRead s.cfg.kbsrAddr).1 = 0x0000#16 ∧ (s.memRead s.cfg.kbsrAddr).2.running = false ∧
      (∀ j < 15, ((s.memRead s.cfg.kbsrAddr).2.word s.cfg.clkAddr).getLsbD j = (s.word s.cfg.clkAddr).getLsbD j) ∧
      (∀ a, a ≠ s.cfg.clkAddr → (s.memRead s.cfg.kbsrAddr).2.word a = s.word a) ∧
      (s.memRead s.cfg.kbsrAddr).2.log = .diag k :: .inPoll s.input.next :: s.log)

/-- spec/20_memory.md section 3, the KBDR read: the latch, no port call; cleared only if KBDR_READ_CLEARS (decision D11,
log entry 18). -/
def Obligations.KbdrReadReturnsLatch : Prop :=
  ∀ s : State, s.cfg.Distinct →
    (s.memRead s.cfg.kbdrAddr).1 = s.word s.cfg.kbdrAddr ∧ SamePorts s (s.memRead s.cfg.kbdrAddr).2 ∧
    SameCpu s (s.memRead s.cfg.kbdrAddr).2 ∧
    (s.cfg.kbdrReadClears = false → SameMemory s (s.memRead s.cfg.kbdrAddr).2) ∧
    (s.cfg.kbdrReadClears = true → ∀ a, (s.memRead s.cfg.kbdrAddr).2.word a =
      if a = s.cfg.kbdrAddr then 0x0000#16 else s.word a)

/-- spec/20_memory.md section 3: every KBSR read polls, so a second byte overwrites an unread first one, and the first is
lost, not delivered twice (decision D11, log entry 18). -/
def Obligations.UnreadByteIsOverwritten : Prop :=
  ∀ (s : State) (b₁ b₂ : Byte) (rest : List InAnswer), s.cfg.Distinct → s.input.exhausted = false →
    s.input.answers = .byte b₁ :: .byte b₂ :: rest →
    (s.memRead s.cfg.kbsrAddr).1 = 0x8000#16 ∧
    ((s.memRead s.cfg.kbsrAddr).2.memRead s.cfg.kbsrAddr).1 = 0x8000#16 ∧
    ((((s.memRead s.cfg.kbsrAddr).2.memRead s.cfg.kbsrAddr).2.memRead s.cfg.kbdrAddr).1).toNat = b₂.toNat ∧
    ((s.memRead s.cfg.kbsrAddr).2.memRead s.cfg.kbsrAddr).2.input.answers = rest

/-- R38, R40: direct writes to KBDR and DSR change nothing and call no port. -/
def Obligations.KbdrDsrWritesIgnored : Prop :=
  ∀ (s : State) (v : Word), s.cfg.Distinct →
    s.memWrite s.cfg.kbdrAddr v = s ∧ s.memWrite s.cfg.dsrAddr v = s

/-- spec/20_memory.md section 3: DDR reads 0, DSR reads its stored word, neither with a side effect; DSR reads 0x8000 after reset and after
a DDR write that succeeded, 0x0000 after one that failed (decision D12, log entry 19). -/
def Obligations.DisplayReads : Prop :=
  (∀ s : State, s.cfg.Distinct →
    s.memRead s.cfg.ddrAddr = (0x0000#16, s) ∧ s.memRead s.cfg.dsrAddr = (s.word s.cfg.dsrAddr, s) ∧
    ∀ v : Word, ((s.memWrite s.cfg.ddrAddr v).memRead s.cfg.dsrAddr).1 =
      match s.output.next with
      | .ok => 0x8000#16
      | .fail => 0x0000#16) ∧
  ∀ c : Config, c.Distinct → ((State.resetWith c).memRead c.dsrAddr).1 = 0x8000#16

/-- spec/20_memory.md section 3, the DDR write: the low byte is forwarded (a line feed to a terminal after a carriage
return, decision D13), DDR becomes 0, DSR says whether it succeeded (decision D12), log entries 19 and 20.
`State.sink` is the observable output of R151, the byte lists of the calls that answered Ok. What the sink itself received
of a call that failed is left open there and not modelled (log entry 6, DESIGN CHOICE): no clause speaks of it. -/
def Obligations.DdrWriteForwards : Prop :=
  ∀ (s : State) (v : Word) (bytes : List Byte), s.cfg.Distinct →
    bytes = (if s.cfg.sinkIsTerminal = true ∧ v.toNat % 256 = 0x0A then [0x0D#8, 0x0A#8]
      else [BitVec.ofNat 8 (v.toNat % 256)]) →
    (s.memWrite s.cfg.ddrAddr v).log = .outWrite bytes s.output.next :: s.log ∧
    (s.memWrite s.cfg.ddrAddr v).word s.cfg.ddrAddr = 0x0000#16 ∧
    (s.output.next = .ok → (s.memWrite s.cfg.ddrAddr v).word s.cfg.dsrAddr = 0x8000#16 ∧
      (s.memWrite s.cfg.ddrAddr v).sink = s.sink ++ bytes) ∧
    (s.output.next = .fail → (s.memWrite s.cfg.ddrAddr v).word s.cfg.dsrAddr = 0x0000#16 ∧
      (s.memWrite s.cfg.ddrAddr v).sink = s.sink) ∧
    (∀ a, a ≠ s.cfg.ddrAddr → a ≠ s.cfg.dsrAddr → (s.memWrite s.cfg.ddrAddr v).word a = s.word a) ∧
    SameCpu s (s.memWrite s.cfg.ddrAddr v) ∧ (s.memWrite s.cfg.ddrAddr v).running = s.running

/-- spec/20_memory.md section 3: CLK is plain storage; its bit 15 gates the run loop and nothing else happens at the access.
That a step of the halted machine is an unchanged next state, the last clause, is the model's choice (log entry 7). -/
def Obligations.ClkIsPlainStorage : Prop :=
  ∀ (s : State) (v : Word), s.cfg.Distinct →
    s.memRead s.cfg.clkAddr = (s.word s.cfg.clkAddr, s) ∧
    SameCpu s (s.memWrite s.cfg.clkAddr v) ∧ SamePorts s (s.memWrite s.cfg.clkAddr v) ∧
    (∀ b : Word, (s.memWrite s.cfg.clkAddr v).word b = if b = s.cfg.clkAddr then v else s.word b) ∧
    (s.memWrite s.cfg.clkAddr v).running = v.getLsbD 15 ∧
    (v.getLsbD 15 = false → step (s.memWrite s.cfg.clkAddr v) = .next (s.memWrite s.cfg.clkAddr v))

/-- spec/60_exceptions.md section 6, the input port: an exhausted input stays exhausted (decision D28), and a file-backed
input answers its bytes once each, in order, then Exhausted for ever (log entries 4 and 21). -/
def Obligations.InputContract : Prop :=
  (∀ (p : InPort) (k : Nat), p.next = .exhausted → (InPort.afterPoll^[k] p).next = .exhausted) ∧
  ∀ (p : InPort) (bs : List Byte), p.exhausted = false → p.answers = bs.map .byte ++ [.exhausted] →
    ∀ k : Nat, (InPort.afterPoll^[k] p).next =
      match bs[k]? with
      | some b => .byte b
      | none => .exhausted

/-! ### Whole-machine rules -/

/-- spec/40_instruction_cycle.md section 3, the table of the PC after a cycle (marked derived there): A1 is the
incremented PC. -/
def Obligations.PcAfterCycle : Prop :=
  ∀ (s t : State) (a1 : Word), s.running = true → step s = .next t → a1 = BitVec.ofNat 16 ((s.pc.toNat + 1) % 65536) →
    t.pc = match decode s.fetch.ir with
      | .br n z p off => if branchTaken n z p s.cc then a1 + off else a1
      | .jmp base => s.reg base
      | .jsr off => a1 + off
      | .jsrr base => s.reg base
      | .trap vect => (s.fetch.memRead (zext vect)).1
      | .addReg _ _ _ => a1
      | .addImm _ _ _ => a1
      | .ld _ _ => a1
      | .st _ _ => a1
      | .andReg _ _ _ => a1
      | .andImm _ _ _ => a1
      | .ldr _ _ _ => a1
      | .str _ _ _ => a1
      | .rti => a1
      | .not _ _ => a1
      | .ldi _ _ => a1
      | .sti _ _ => a1
      | .reserved _ => a1
      | .lea _ _ => a1

/-- spec/10_state.md section 1, the table of register writers: in a cycle no register changes but the instruction's
destination, and the link registers of JSR, JSRR and TRAP get the incremented PC. -/
def Obligations.RegisterWriters : Prop :=
  ∀ s t : State, s.running = true → step s = .next t →
    (∀ r : Reg, destOf (decode s.fetch.ir) ≠ some r → t.reg r = s.reg r) ∧
    (∀ off, decode s.fetch.ir = .jsr off → t.reg 7#3 = s.pc + 1) ∧
    (∀ base, decode s.fetch.ir = .jsrr base → t.reg 7#3 = s.pc + 1) ∧
    (∀ vect, decode s.fetch.ir = .trap vect → t.reg 7#3 = s.pc + 1)

/-- spec/10_state.md sections 1 and 3: in a cycle the condition code becomes that of the word written by ADD, AND, NOT,
LD, LDI, LDR, LEA, and no other instruction changes it (for JSR, JSRR, TRAP decision D5, log entry 12). -/
def Obligations.ConditionCodeWriters : Prop :=
  ∀ s t : State, s.running = true → step s = .next t →
    (setsCC (decode s.fetch.ir) = true →
      ∃ dr : Reg, destOf (decode s.fetch.ir) = some dr ∧ CcDescribes t.cc (t.reg dr)) ∧
    (setsCC (decode s.fetch.ir) = false → t.cc = s.cc)

/-- spec/20_memory.md section 4: ADD, AND, NOT, LEA, BR, JMP, JSR, JSRR, RTI and RESERVED make no data access, so no word
and no port changes in their execute step. -/
def Obligations.NoDataAccessInstructions : Prop :=
  ∀ (i : Instr) (s t : State), noDataAccess i = true → exec i s = .next t → Quiet s t

/-- spec/20_memory.md sections 3 and 4: in a whole cycle, fetch included, a word that is no device register's changes only
by the data write of ST, STI or STR, to exactly the word stored. -/
def Obligations.PlainWordsChangeOnlyByStores : Prop :=
  ∀ (s t : State) (a : Word), s.running = true → step s = .next t → s.cfg.isDevice a = false →
    (∀ v, storeOf s.fetch (decode s.fetch.ir) = some (a, v) → t.word a = v) ∧
    ((∀ v, storeOf s.fetch (decode s.fetch.ir) ≠ some (a, v)) → t.word a = s.word a)

/-- spec/60_exceptions.md section 4 and spec/40_instruction_cycle.md section 1: a cycle leaves the machine halted exactly
when it stores a word with bit 15 clear to CLK, or surfaces a diagnostic (a KBSR read answered Exhausted or Cancelled)
and does not then store to CLK. -/
def Obligations.WaysToHalt : Prop :=
  ∀ (s t : State) (calls : List PortCall), s.cfg.Distinct → s.running = true → step s = .next t →
    t.log = calls ++ s.log →
    (t.running = false ↔
      (∃ v, storeOf s.fetch (decode s.fetch.ir) = some (s.cfg.clkAddr, v) ∧ v.getLsbD 15 = false) ∨
      ((∀ v, storeOf s.fetch (decode s.fetch.ir) ≠ some (s.cfg.clkAddr, v)) ∧ ∃ k, .diag k ∈ calls))

/-- A cycle keeps the parameters, leaves in IR the word it fetched, and only adds to the sequence of port calls
(spec/10_state.md section 2, spec/40_instruction_cycle.md section 4). -/
def Obligations.CycleKeepsRecord : Prop :=
  ∀ s t : State, s.running = true → step s = .next t →
    t.cfg = s.cfg ∧ t.ir = (s.memRead s.pc).1 ∧ ∃ calls : List PortCall, t.log = calls ++ s.log

/-- R181: a store is seen by the next fetch of that address, whenever it comes: after the storing step and any number of
steps with no data write to the address, the step that fetches from it leaves the stored word in IR. The address is any
that keeps what is stored to it: plain storage (R44), or CLK (R43), for which the distinct addresses of R3 are a premise.
Between the two steps CLK cannot change otherwise and the machine still run. -/
def Obligations.StoreSeenByNextFetch : Prop :=
  ∀ (s t u w : State) (a v : Word),
    s.cfg.isDevice a = false ∨ (s.cfg.Distinct ∧ a = s.cfg.clkAddr) →
    s.running = true → step s = .next t → storeOf s.fetch (decode s.fetch.ir) = some (a, v) →
    RunsWithoutStoreTo a t u → u.running = true → u.pc = a → step u = .next w → w.ir = v

/-- spec/30_encoding.md section 3, reserved encodings: unloaded memory executes as no-ops (marked derived there; a wired
predictor observes the branch as not taken, decision D18, log entry 25). -/
def Obligations.UnloadedMemoryIsNoOp : Prop :=
  ∀ s : State, s.running = true → s.cfg.isDevice s.pc = false → s.word s.pc = 0x0000#16 →
    step s = .next ({ s with
      ir := 0x0000#16
      pc := s.pc + 1
      pred := if s.cfg.predictorWired then predUpdate s.pred false else s.pred } : State).traceStep

/-! ### Trace and predictor -/

/-- spec/60_exceptions.md section 7: the filter (bit n of the mask for opcode n, conflict C6), the record, nothing else
changed by the trace step, the configuration immutable, D0's example. That the trace step takes the PC after the execute
step is decision D17 (log entry 24). -/
def Obligations.TraceFilter : Prop :=
  (∀ (c : Config) (op : BitVec 4) (pc : Word), wants c op pc = true ↔
    c.traceEnabled = true ∧ (c.traceUserOnly = false ∨ 0x3000 ≤ pc.toNat) ∧ c.traceMask.getLsbD op.toNat = true) ∧
  (∀ s : State, SameCpu s s.traceStep ∧ SameMemory s s.traceStep ∧ s.traceStep.input = s.input ∧
    s.traceStep.output = s.output ∧
    s.traceStep.log =
      if wants s.cfg (bits 12 4 s.ir) s.pc then
        .traceEmit { ir := s.ir, regs := s.regs, pc := s.pc, cc := s.cc } :: s.log
      else s.log) ∧
  (∀ s t : State, step s = .next t → t.cfg = s.cfg) ∧
  ∀ c : Config, c.traceEnabled = true → c.traceMask = 0x0002#16 → c.traceUserOnly = true →
    wants c 1#4 0x3010#16 = true ∧ wants c 1#4 0x2FF0#16 = false ∧
    ∀ (op : BitVec 4) (pc : Word), op ≠ 1#4 → wants c op pc = false

/-- spec/40_instruction_cycle.md section 2, the trace step, and spec/60_exceptions.md section 7: the port never affects
execution. Two machines that differ only in the trace configuration and in the calls made before stay alike, and make
the same calls but for the trace records. -/
def Obligations.TraceNeverAffectsExecution : Prop :=
  ∀ (s t : State) (mask : BitVec 16) (userOnly enabled : Bool) (calls : List PortCall), step s = .next t →
    ∃ new new' : List PortCall,
      t.log = new ++ s.log ∧
      step { s with
        cfg := { s.cfg with traceMask := mask, traceUserOnly := userOnly, traceEnabled := enabled }
        log := calls } =
        .next { t with
          cfg := { s.cfg with traceMask := mask, traceUserOnly := userOnly, traceEnabled := enabled }
          log := new' ++ calls } ∧
      new.filter (fun c => match c with
        | .traceEmit _ => false
        | _ => true) =
      new'.filter (fun c => match c with
        | .traceEmit _ => false
        | _ => true)

/-- spec/70_reset_and_hazards.md section 5: the saturating counter, and that everything but BR leaves it alone. That every
instruction other than BR counts as an unconditional jump or a non-branch is the spec's own classification, decision D18
(log entry 25). -/
def Obligations.PredictorCounter : Prop :=
  (∀ q : Pred, predictsTaken q = true ↔ 2 ≤ predNumber q) ∧
  (∀ q : Pred, predNumber (predUpdate q true) = min (predNumber q + 1) 3) ∧
  (∀ q : Pred, predNumber (predUpdate q false) = max (predNumber q - 1) 0) ∧
  ∀ (i : Instr) (s t : State), (∀ n z p off, i ≠ .br n z p off) → exec i s = .next t → t.pred = s.pred

/-- R194: nothing depends on the predictor: from any other predictor value the same step leads to the same state but for
the predictor. -/
def Obligations.PredictorAffectsNothing : Prop :=
  ∀ (s t : State) (q : Pred), step s = .next t → ∃ q' : Pred, step { s with pred := q } = .next { t with pred := q' }

/-! ### The host's moves -/

/-- spec/60_exceptions.md section 4, the host halt request (decision D25, log entry 8): bit 15 of the CLK word only, and
the next run-loop test ends the run. That a step of the halted machine is an unchanged next state, the last clause, is the
model's choice (log entry 7). -/
def Obligations.HostHaltRequest : Prop :=
  ∀ s : State, SameCpu s s.hostHalt ∧ SamePorts s s.hostHalt ∧
    (∀ a, a ≠ s.cfg.clkAddr → s.hostHalt.word a = s.word a) ∧
    (∀ j < 15, (s.hostHalt.word s.cfg.clkAddr).getLsbD j = (s.word s.cfg.clkAddr).getLsbD j) ∧
    s.hostHalt.running = false ∧ step s.hostHalt = .next s.hostHalt

/-- spec/70_reset_and_hazards.md section 2, the load port: an image that covers no device register is stored word by word
from its origin, wrapping, and nothing else changes. -/
def Obligations.LoadPlacesImage : Prop :=
  ∀ (s : State) (origin : Word) (words : List Word), words.length ≤ 65536 →
    (∀ j < words.length, s.cfg.isDevice (origin + BitVec.ofNat 16 j) = false) →
    ∃ t : State, s.load (origin, words) = .next t ∧ SameCpu s t ∧ SamePorts s t ∧
      (∀ (j : Nat) (h : j < words.length), t.word (origin + BitVec.ofNat 16 j) = words[j]) ∧
      ∀ a : Word, (∀ j < words.length, a ≠ origin + BitVec.ofNat 16 j) → t.word a = s.word a

/-- spec/70_reset_and_hazards.md section 2: an image over a device-register address is refused (decision D16, log entry
23). -/
def Obligations.LoadOverDeviceRefused : Prop :=
  ∀ (s : State) (origin : Word) (words : List Word) (j : Nat), j < words.length →
    s.cfg.isDevice (origin + BitVec.ofNat 16 j) = true → s.load (origin, words) = .refused .imageCoversDevice

/-- R175: under two bytes is a load error; two bytes load nothing; otherwise big-endian words, the first the origin, the
rest the image. -/
def Obligations.ObjectFile : Prop :=
  (∀ (s : State) (bytes : List Byte), bytes.length < 2 → s.loadFile bytes = .fault .loadError) ∧
  (∀ (s : State) (hi lo : Byte), s.loadFile [hi, lo] = .next s) ∧
  ∀ (s : State) (origin : Word) (words : List Word),
    s.loadFile ((origin :: words).flatMap (fun w =>
      [BitVec.ofNat 8 (w.toNat / 256), BitVec.ofNat 8 (w.toNat % 256)])) = s.load (origin, words)

/-- spec/70_reset_and_hazards.md sections 1 and 2: a launched machine is the reset machine with the images written over
its memory and the PC at START_PC; it is running and has called no port; its words outside the images are reset's. -/
def Obligations.LaunchedState : Prop :=
  ∀ (c : Config) (images : List Image) (s : State), launch c images = .next s →
    s.cfg = c ∧ s.pc = c.startPc ∧ (∀ r : Reg, s.reg r = 0x0000#16) ∧ s.ir = 0x0000#16 ∧ s.cc = .z ∧
    s.pred = c.predInit ∧ s.log = [] ∧ s.running = true ∧
    ∀ a : Word, (∀ image ∈ images, a ∉ imageAddrs image.1 image.2) → s.word a = (State.resetWith c).word a

/-- spec/70_reset_and_hazards.md section 2, load order: the last image's words stand, whatever was loaded before. -/
def Obligations.LaterLoadWins : Prop :=
  ∀ (s t : State) (images : List Image) (origin : Word) (words : List Word), words.length ≤ 65536 →
    s.loadAll (images ++ [(origin, words)]) = .next t →
    ∀ (j : Nat) (h : j < words.length), t.word (origin + BitVec.ofNat 16 j) = words[j]
end

