-- ==== Sys2Proof/Laws/Codec.lean ====
section
/-! SUPPORT. The bits of the codec's building blocks: which bit of a word a field is. -/

namespace Sys2Proof

theorem getLsbD_put {len : Nat} (lo : Nat) (f : BitVec len) (i : Nat) :
    (put lo f).getLsbD i = (decide (i < 16) && decide (lo ≤ i) && f.getLsbD (i - lo)) := by
  simp only [put, BitVec.getLsbD_shiftLeft, BitVec.getLsbD_setWidth]
  by_cases h : i < 16
  · have : i - lo < 16 := by omega
    by_cases h2 : i < lo
    · simp [h, h2, Nat.not_le.mpr h2]
    · simp [h, h2, Nat.not_lt.mp h2, this]
  · simp [h]

@[simp] theorem getElem_put {len : Nat} (lo : Nat) (f : BitVec len) (i : Nat) (h : i < 16) :
    (put lo f)[i] = (decide (lo ≤ i) && f.getLsbD (i - lo)) := by
  rw [← BitVec.getLsbD_eq_getElem, getLsbD_put]; simp [h]

@[simp] theorem getElem_putBit (p : Nat) (b : Bool) (i : Nat) (h : i < 16) :
    (putBit p b)[i] = (decide (i = p) && b) := by
  rw [putBit, getElem_put]
  by_cases hp : i = p
  · subst hp; simp
  · by_cases h2 : p ≤ i
    · have : i - p ≠ 0 := by omega
      simp [hp, BitVec.getLsbD_ofBool, this]
    · simp [hp, h2]

theorem getLsbD_bits (lo len : Nat) (w : Word) (i : Nat) :
    (bits lo len w).getLsbD i = (decide (i < len) && w.getLsbD (lo + i)) := by
  simp [bits]

@[simp] theorem getElem_bits (lo len : Nat) (w : Word) (i : Nat) (h : i < len) :
    (bits lo len w)[i] = w.getLsbD (lo + i) := by
  rw [← BitVec.getLsbD_eq_getElem, getLsbD_bits]; simp [h]

/-- A field read back from where it was put, when nothing else reaches its bits. -/
theorem bits_put {len : Nat} (lo : Nat) (f : BitVec len) (h : lo + len ≤ 16) : bits lo len (put lo f) = f := by
  ext i hi
  have : lo + i < 16 := by omega
  simp [this, BitVec.getLsbD_eq_getElem hi]

theorem bits_or (lo len : Nat) (v w : Word) : bits lo len (v ||| w) = bits lo len v ||| bits lo len w := by
  ext i hi; simp

/-- A canonical immediate survives being cut to its field and extended again (R80). -/
theorem sext_bits_of_fits (w : Nat) (v : Word) (h : fitsSigned w v = true) : sext (bits 0 w v) = v := by
  have e : bits 0 w v = v.setWidth w := by
    ext i hi; simp
  rw [e]; simpa [fitsSigned, sext] using h

end Sys2Proof
end

