-- ==== Sys2Proof/Laws/Memory.lean ====
section
/-! SUPPORT. The laws of the storage array: a read gives the last word written, a write leaves every other word
alone, and every operation keeps the canonical form. -/

namespace Sys2Proof.Machine

theorem Memory.readAt_erase (m : Memory) (k j : Nat) :
    Memory.readAt (Memory.erase m k) j = if j = k then Memory.unlisted else Memory.readAt m j := by
  induction m with
  | nil => simp [Memory.erase, Memory.readAt]
  | cons c rest ih =>
    obtain ⟨a, u⟩ := c
    by_cases ha : a = k
    · subst a
      by_cases hj : j = k
      · subst j; simpa [Memory.erase] using ih
      · simp [Memory.erase, ih, hj, Memory.readAt, Ne.symm hj]
    · by_cases haj : a = j
      · subst haj; simp [Memory.erase, ha, Memory.readAt]
      · simp [Memory.erase, ha, Memory.readAt, haj, ih]

theorem Memory.readAt_insert (m : Memory) (k j : Nat) (v : Word) :
    Memory.readAt (Memory.insert m k v) j = if j = k then v else Memory.readAt m j := by
  induction m with
  | nil => by_cases hj : j = k <;> simp [Memory.insert, Memory.readAt, hj, Ne.symm]
  | cons c rest ih =>
    obtain ⟨a, u⟩ := c
    simp only [Memory.insert]
    split
    · by_cases haj : a = j
      · simp [Memory.readAt, haj, show j ≠ k by omega]
      · simp [Memory.readAt, haj, ih]
    · split
      · subst a
        by_cases hj : j = k
        · simp [Memory.readAt, hj]
        · simp [Memory.readAt, hj, Ne.symm hj]
      · by_cases hj : j = k
        · simp [Memory.readAt, hj]
        · simp [Memory.readAt, hj, Ne.symm hj]

/-- A write, read back at every address. -/
theorem Memory.readAt_writeAt (m : Memory) (k j : Nat) (v : Word) :
    Memory.readAt (Memory.writeAt m k v) j = if j = k then v else Memory.readAt m j := by
  by_cases hv : v = Memory.unlisted
  · simp [Memory.writeAt, hv, Memory.readAt_erase]
  · simp [Memory.writeAt, hv, Memory.readAt_insert]

theorem Memory.wfFrom_mono (m : Memory) (lo hi : Nat) (hlo : lo ≤ hi) (h : Memory.wfFrom hi m) :
    Memory.wfFrom lo m := by
  cases m with
  | nil => rfl
  | cons c rest =>
    simp only [Memory.wfFrom, Bool.and_eq_true, decide_eq_true_eq] at h ⊢
    exact ⟨⟨⟨by omega, h.1.1.2⟩, h.1.2⟩, h.2⟩

theorem Memory.wfFrom_erase (m : Memory) (lo k : Nat) (h : Memory.wfFrom lo m) :
    Memory.wfFrom lo (Memory.erase m k) := by
  induction m generalizing lo with
  | nil => rfl
  | cons c rest ih =>
    obtain ⟨a, u⟩ := c
    simp only [Memory.wfFrom, Bool.and_eq_true, decide_eq_true_eq] at h
    simp only [Memory.erase]
    split
    · exact Memory.wfFrom_mono _ lo (a + 1) (by omega) (ih _ h.2)
    · simp only [Memory.wfFrom, Bool.and_eq_true, decide_eq_true_eq]
      exact ⟨h.1, ih _ h.2⟩

theorem Memory.wfFrom_insert (m : Memory) (lo k : Nat) (v : Word) (hlo : lo ≤ k) (hk : k < 65536)
    (hv : v ≠ Memory.unlisted) (h : Memory.wfFrom lo m) : Memory.wfFrom lo (Memory.insert m k v) := by
  induction m generalizing lo with
  | nil => simp [Memory.insert, Memory.wfFrom, hv, hlo, hk]
  | cons c rest ih =>
    obtain ⟨a, u⟩ := c
    simp only [Memory.wfFrom, Bool.and_eq_true, decide_eq_true_eq] at h
    obtain ⟨⟨⟨h1, h2⟩, h3⟩, h4⟩ := h
    simp only [Memory.insert]
    split
    · simp only [Memory.wfFrom, Bool.and_eq_true, decide_eq_true_eq]
      exact ⟨⟨⟨h1, h2⟩, h3⟩, ih _ (by omega) h4⟩
    · split
      · subst a; simp [hv, Memory.wfFrom, hlo, hk, h4]
      · simp [hv, Memory.wfFrom, hlo, hk, h2, h3, h4]; omega

/-- A read gives the word last written (R47). -/
@[simp] theorem Memory.read_write_self (m : Memory) (a v : Word) : Memory.read (Memory.write m a v) a = v := by
  simp [Memory.read, Memory.write, Memory.readAt_writeAt]

/-- A write leaves every other word alone (R44). -/
theorem Memory.read_write_ne (m : Memory) (a b v : Word) (h : b ≠ a) :
    Memory.read (Memory.write m a v) b = Memory.read m b := by
  have : b.toNat ≠ a.toNat := fun e => h (BitVec.eq_of_toNat_eq e)
  simp [Memory.read, Memory.write, Memory.readAt_writeAt, this]

/-- A write, read back at every address. -/
theorem Memory.read_write (m : Memory) (a b v : Word) :
    Memory.read (Memory.write m a v) b = if b = a then v else Memory.read m b := by
  split
  · next h => subst h; exact Memory.read_write_self m b v
  · next h => exact Memory.read_write_ne m a b v h

/-- A write keeps the canonical form. -/
theorem Memory.write_wf (m : Memory) (a v : Word) (h : m.wf) : (Memory.write m a v).wf := by
  unfold Memory.wf Memory.write Memory.writeAt
  split
  · exact Memory.wfFrom_erase m 0 a.toNat h
  · next hv => exact Memory.wfFrom_insert m 0 a.toNat v (Nat.zero_le _) a.isLt hv h

theorem Memory.empty_wf : Memory.empty.wf := rfl

@[simp] theorem Memory.read_empty (a : Word) : Memory.read Memory.empty a = Memory.unlisted := rfl

/-- Below its first possible address a canonical array lists nothing. -/
theorem Memory.readAt_below (m : Memory) (lo j : Nat) (h : Memory.wfFrom lo m) (hj : j < lo) :
    Memory.readAt m j = Memory.unlisted := by
  induction m generalizing lo with
  | nil => rfl
  | cons c rest ih =>
    obtain ⟨a, u⟩ := c
    simp only [Memory.wfFrom, Bool.and_eq_true, decide_eq_true_eq] at h
    simp only [Memory.readAt, show a ≠ j by omega, if_false]
    exact ih _ h.2 (by omega)

/-- In canonical form equal memories are equal data: two arrays that read alike everywhere are the same list. -/
theorem Memory.wfFrom_ext (m₁ m₂ : Memory) (lo : Nat) (h₁ : Memory.wfFrom lo m₁) (h₂ : Memory.wfFrom lo m₂)
    (h : ∀ k, Memory.readAt m₁ k = Memory.readAt m₂ k) : m₁ = m₂ := by
  induction m₁ generalizing m₂ lo with
  | nil =>
    cases m₂ with
    | nil => rfl
    | cons c rest =>
      obtain ⟨a, u⟩ := c
      simp only [Memory.wfFrom, Bool.and_eq_true, decide_eq_true_eq] at h₂
      exact absurd (by simpa [Memory.readAt] using (h a).symm) h₂.1.2
  | cons c rest ih =>
    obtain ⟨a, u⟩ := c
    have h₁' := h₁
    simp only [Memory.wfFrom, Bool.and_eq_true, decide_eq_true_eq] at h₁
    cases m₂ with
    | nil => exact absurd (by simpa [Memory.readAt] using h a) h₁.1.2
    | cons d rest₂ =>
      obtain ⟨b, v⟩ := d
      have h₂' := h₂
      simp only [Memory.wfFrom, Bool.and_eq_true, decide_eq_true_eq] at h₂
      rcases Nat.lt_trichotomy a b with hab | hab | hab
      · have e := h a
        simp only [Memory.readAt, if_true, show b ≠ a by omega, if_false] at e
        exact absurd (e.trans (Memory.readAt_below rest₂ _ a h₂.2 (by omega))) h₁.1.2
      · subst b
        have huv : u = v := by simpa [Memory.readAt] using h a
        subst v
        rw [ih rest₂ (a + 1) h₁.2 h₂.2]
        intro k
        by_cases hk : a = k
        · subst k; rw [Memory.readAt_below rest _ a h₁.2 (by omega), Memory.readAt_below rest₂ _ a h₂.2 (by omega)]
        · simpa [Memory.readAt, hk] using h k
      · have e := h b
        simp only [Memory.readAt, if_true, show a ≠ b by omega, if_false] at e
        exact absurd (e.symm.trans (Memory.readAt_below rest _ b h₁.2 (by omega))) h₂.1.2

end Sys2Proof.Machine
end

