-- ==== Sys2Proof/Laws/State.lean ====
section
/-! SUPPORT. One lemma per field per named update of State, and what each update does to the register file and to
the storage array. -/

namespace Sys2Proof.Machine

section
variable (s : State)

@[simp] theorem State.setReg_cfg (r : Reg) (v : Word) : (s.setReg r v).cfg = s.cfg := rfl
@[simp] theorem State.setReg_regs (r : Reg) (v : Word) : (s.setReg r v).regs = s.regs.set r.toNat v := rfl
@[simp] theorem State.setReg_pc (r : Reg) (v : Word) : (s.setReg r v).pc = s.pc := rfl
@[simp] theorem State.setReg_ir (r : Reg) (v : Word) : (s.setReg r v).ir = s.ir := rfl
@[simp] theorem State.setReg_cc (r : Reg) (v : Word) : (s.setReg r v).cc = s.cc := rfl
@[simp] theorem State.setReg_mem (r : Reg) (v : Word) : (s.setReg r v).mem = s.mem := rfl
@[simp] theorem State.setReg_pred (r : Reg) (v : Word) : (s.setReg r v).pred = s.pred := rfl
@[simp] theorem State.setReg_input (r : Reg) (v : Word) : (s.setReg r v).input = s.input := rfl
@[simp] theorem State.setReg_output (r : Reg) (v : Word) : (s.setReg r v).output = s.output := rfl
@[simp] theorem State.setReg_log (r : Reg) (v : Word) : (s.setReg r v).log = s.log := rfl

@[simp] theorem State.setCC_cfg (c : CC) : (s.setCC c).cfg = s.cfg := rfl
@[simp] theorem State.setCC_regs (c : CC) : (s.setCC c).regs = s.regs := rfl
@[simp] theorem State.setCC_pc (c : CC) : (s.setCC c).pc = s.pc := rfl
@[simp] theorem State.setCC_ir (c : CC) : (s.setCC c).ir = s.ir := rfl
@[simp] theorem State.setCC_cc (c : CC) : (s.setCC c).cc = c := rfl
@[simp] theorem State.setCC_mem (c : CC) : (s.setCC c).mem = s.mem := rfl
@[simp] theorem State.setCC_pred (c : CC) : (s.setCC c).pred = s.pred := rfl
@[simp] theorem State.setCC_input (c : CC) : (s.setCC c).input = s.input := rfl
@[simp] theorem State.setCC_output (c : CC) : (s.setCC c).output = s.output := rfl
@[simp] theorem State.setCC_log (c : CC) : (s.setCC c).log = s.log := rfl

@[simp] theorem State.setPc_cfg (a : Word) : (s.setPc a).cfg = s.cfg := rfl
@[simp] theorem State.setPc_regs (a : Word) : (s.setPc a).regs = s.regs := rfl
@[simp] theorem State.setPc_pc (a : Word) : (s.setPc a).pc = a := rfl
@[simp] theorem State.setPc_ir (a : Word) : (s.setPc a).ir = s.ir := rfl
@[simp] theorem State.setPc_cc (a : Word) : (s.setPc a).cc = s.cc := rfl
@[simp] theorem State.setPc_mem (a : Word) : (s.setPc a).mem = s.mem := rfl
@[simp] theorem State.setPc_pred (a : Word) : (s.setPc a).pred = s.pred := rfl
@[simp] theorem State.setPc_input (a : Word) : (s.setPc a).input = s.input := rfl
@[simp] theorem State.setPc_output (a : Word) : (s.setPc a).output = s.output := rfl
@[simp] theorem State.setPc_log (a : Word) : (s.setPc a).log = s.log := rfl

@[simp] theorem State.setIr_cfg (w : Word) : (s.setIr w).cfg = s.cfg := rfl
@[simp] theorem State.setIr_regs (w : Word) : (s.setIr w).regs = s.regs := rfl
@[simp] theorem State.setIr_pc (w : Word) : (s.setIr w).pc = s.pc := rfl
@[simp] theorem State.setIr_ir (w : Word) : (s.setIr w).ir = w := rfl
@[simp] theorem State.setIr_cc (w : Word) : (s.setIr w).cc = s.cc := rfl
@[simp] theorem State.setIr_mem (w : Word) : (s.setIr w).mem = s.mem := rfl
@[simp] theorem State.setIr_pred (w : Word) : (s.setIr w).pred = s.pred := rfl
@[simp] theorem State.setIr_input (w : Word) : (s.setIr w).input = s.input := rfl
@[simp] theorem State.setIr_output (w : Word) : (s.setIr w).output = s.output := rfl
@[simp] theorem State.setIr_log (w : Word) : (s.setIr w).log = s.log := rfl

@[simp] theorem State.setPred_cfg (q : Pred) : (s.setPred q).cfg = s.cfg := rfl
@[simp] theorem State.setPred_regs (q : Pred) : (s.setPred q).regs = s.regs := rfl
@[simp] theorem State.setPred_pc (q : Pred) : (s.setPred q).pc = s.pc := rfl
@[simp] theorem State.setPred_ir (q : Pred) : (s.setPred q).ir = s.ir := rfl
@[simp] theorem State.setPred_cc (q : Pred) : (s.setPred q).cc = s.cc := rfl
@[simp] theorem State.setPred_mem (q : Pred) : (s.setPred q).mem = s.mem := rfl
@[simp] theorem State.setPred_pred (q : Pred) : (s.setPred q).pred = q := rfl
@[simp] theorem State.setPred_input (q : Pred) : (s.setPred q).input = s.input := rfl
@[simp] theorem State.setPred_output (q : Pred) : (s.setPred q).output = s.output := rfl
@[simp] theorem State.setPred_log (q : Pred) : (s.setPred q).log = s.log := rfl

@[simp] theorem State.setWord_cfg (a v : Word) : (s.setWord a v).cfg = s.cfg := rfl
@[simp] theorem State.setWord_regs (a v : Word) : (s.setWord a v).regs = s.regs := rfl
@[simp] theorem State.setWord_pc (a v : Word) : (s.setWord a v).pc = s.pc := rfl
@[simp] theorem State.setWord_ir (a v : Word) : (s.setWord a v).ir = s.ir := rfl
@[simp] theorem State.setWord_cc (a v : Word) : (s.setWord a v).cc = s.cc := rfl
@[simp] theorem State.setWord_mem (a v : Word) : (s.setWord a v).mem = Memory.write s.mem a v := rfl
@[simp] theorem State.setWord_pred (a v : Word) : (s.setWord a v).pred = s.pred := rfl
@[simp] theorem State.setWord_input (a v : Word) : (s.setWord a v).input = s.input := rfl
@[simp] theorem State.setWord_output (a v : Word) : (s.setWord a v).output = s.output := rfl
@[simp] theorem State.setWord_log (a v : Word) : (s.setWord a v).log = s.log := rfl

@[simp] theorem State.call_cfg (c : PortCall) : (s.call c).cfg = s.cfg := rfl
@[simp] theorem State.call_regs (c : PortCall) : (s.call c).regs = s.regs := rfl
@[simp] theorem State.call_pc (c : PortCall) : (s.call c).pc = s.pc := rfl
@[simp] theorem State.call_ir (c : PortCall) : (s.call c).ir = s.ir := rfl
@[simp] theorem State.call_cc (c : PortCall) : (s.call c).cc = s.cc := rfl
@[simp] theorem State.call_mem (c : PortCall) : (s.call c).mem = s.mem := rfl
@[simp] theorem State.call_pred (c : PortCall) : (s.call c).pred = s.pred := rfl
@[simp] theorem State.call_input (c : PortCall) : (s.call c).input = s.input := rfl
@[simp] theorem State.call_output (c : PortCall) : (s.call c).output = s.output := rfl
@[simp] theorem State.call_log (c : PortCall) : (s.call c).log = c :: s.log := rfl

@[simp] theorem State.traceStep_cfg : (s.traceStep).cfg = s.cfg := rfl
@[simp] theorem State.traceStep_regs : (s.traceStep).regs = s.regs := rfl
@[simp] theorem State.traceStep_pc : (s.traceStep).pc = s.pc := rfl
@[simp] theorem State.traceStep_ir : (s.traceStep).ir = s.ir := rfl
@[simp] theorem State.traceStep_cc : (s.traceStep).cc = s.cc := rfl
@[simp] theorem State.traceStep_mem : (s.traceStep).mem = s.mem := rfl
@[simp] theorem State.traceStep_pred : (s.traceStep).pred = s.pred := rfl
@[simp] theorem State.traceStep_input : (s.traceStep).input = s.input := rfl
@[simp] theorem State.traceStep_output : (s.traceStep).output = s.output := rfl
@[simp] theorem State.traceStep_log : (s.traceStep).log = s.traceCalls ++ s.log := rfl

/-! ### What the updates do to registers and words -/

theorem State.reg_def (r : Reg) : s.reg r = s.regs[r.toNat] := rfl

@[simp] theorem State.reg_setReg_self (r : Reg) (v : Word) : (s.setReg r v).reg r = v := by
  simp [State.reg, State.setReg]

theorem State.reg_setReg_ne (r q : Reg) (v : Word) (h : q ≠ r) : (s.setReg r v).reg q = s.reg q := by
  have : r.toNat ≠ q.toNat := fun e => h (BitVec.eq_of_toNat_eq e.symm)
  simp [State.reg, State.setReg, this]

@[simp] theorem State.reg_setCC (c : CC) (q : Reg) : (s.setCC c).reg q = s.reg q := rfl
@[simp] theorem State.reg_setPc (a : Word) (q : Reg) : (s.setPc a).reg q = s.reg q := rfl
@[simp] theorem State.reg_setIr (w : Word) (q : Reg) : (s.setIr w).reg q = s.reg q := rfl
@[simp] theorem State.reg_setPred (p : Pred) (q : Reg) : (s.setPred p).reg q = s.reg q := rfl
@[simp] theorem State.reg_setWord (a v : Word) (q : Reg) : (s.setWord a v).reg q = s.reg q := rfl
@[simp] theorem State.reg_call (c : PortCall) (q : Reg) : (s.call c).reg q = s.reg q := rfl
@[simp] theorem State.reg_traceStep (q : Reg) : s.traceStep.reg q = s.reg q := rfl

@[simp] theorem State.word_setWord_self (a v : Word) : (s.setWord a v).word a = v :=
  Memory.read_write_self s.mem a v

theorem State.word_setWord_ne (a b v : Word) (h : b ≠ a) : (s.setWord a v).word b = s.word b :=
  Memory.read_write_ne s.mem a b v h

theorem State.word_setWord (a b v : Word) : (s.setWord a v).word b = if b = a then v else s.word b :=
  Memory.read_write s.mem a b v

theorem State.setWord_wf (a v : Word) (h : s.mem.wf) : (s.setWord a v).mem.wf :=
  Memory.write_wf s.mem a v h

@[simp] theorem State.word_setReg (r : Reg) (v a : Word) : (s.setReg r v).word a = s.word a := rfl
@[simp] theorem State.word_setCC (c : CC) (a : Word) : (s.setCC c).word a = s.word a := rfl
@[simp] theorem State.word_setPc (b a : Word) : (s.setPc b).word a = s.word a := rfl
@[simp] theorem State.word_setIr (w a : Word) : (s.setIr w).word a = s.word a := rfl
@[simp] theorem State.word_setPred (q : Pred) (a : Word) : (s.setPred q).word a = s.word a := rfl
@[simp] theorem State.word_call (c : PortCall) (a : Word) : (s.call c).word a = s.word a := rfl
@[simp] theorem State.word_traceStep (a : Word) : s.traceStep.word a = s.word a := rfl

end

end Sys2Proof.Machine
end

