-- ==== Sys2Proof/Laws/Ops.lean ====
section
/-! SUPPORT. One lemma per shared operation: everything it can do. Later proofs cite these instead of unfolding the
operation. -/

namespace Sys2Proof.Machine

/-! ### Frame predicates -/

theorem SameCpu.refl (s : State) : SameCpu s s := ⟨fun _ _ => rfl, rfl, rfl, rfl, rfl, rfl⟩

theorem SameCpu.trans {s t u : State} (h : SameCpu s t) (k : SameCpu t u) : SameCpu s u where
  regs := fun r hr => (k.regs r hr).trans (h.regs r hr)
  pc := k.pc.trans h.pc
  ir := k.ir.trans h.ir
  cc := k.cc.trans h.cc
  pred := k.pred.trans h.pred
  cfg := k.cfg.trans h.cfg

theorem SameCpu.reg {s t : State} (h : SameCpu s t) (r : Reg) : t.reg r = s.reg r := h.regs r (by simp)

theorem SameMemory.refl (s : State) : SameMemory s s := fun _ => rfl

theorem SamePorts.refl (s : State) : SamePorts s s := ⟨rfl, rfl, rfl⟩

theorem Quiet.refl (s : State) : Quiet s s := ⟨rfl, rfl, SameMemory.refl s, SamePorts.refl s⟩

/-! ### The condition code -/

/-- `cc_of` in signed numbers (R16). -/
theorem ccOf_describes (v : Word) : CcDescribes (ccOf v) v := by
  have hmsb : v.getLsbD 15 = decide (0x8000 ≤ v.toNat) := by
    have := BitVec.msb_eq_decide v
    simpa [BitVec.msb_eq_getLsbD_last] using this
  have hz : v = 0x0000#16 ↔ v.toNat = 0 := by
    rw [← BitVec.toNat_inj]; simp
  have hlt := v.isLt
  unfold ccOf
  by_cases h0 : v = 0x0000#16
  · constructor <;> simp [h0]
  · have h0' : v.toNat ≠ 0 := fun e => h0 (hz.mpr e)
    by_cases hn : 0x8000 ≤ v.toNat
    · constructor <;> simp only [h0, hmsb, hn, if_false, if_true, decide_true] <;> simp <;> omega
    · constructor <;> simp only [h0, hmsb, hn, if_false, decide_false] <;> simp <;> omega

/-! ### Register writes -/

theorem State.reg_setReg (s : State) (r q : Reg) (v : Word) :
    (s.setReg r v).reg q = if q = r then v else s.reg q := by
  split
  · next h => subst h; exact State.reg_setReg_self s q v
  · next h => exact State.reg_setReg_ne s r q v h

/-- `WriteRegCC` (R12): the register, the condition code, nothing else. -/
theorem State.writeRegCC_writes (s : State) (r : Reg) (v : Word) : WritesReg s (s.writeRegCC r v) r v where
  dest := by simp [State.writeRegCC]
  others := fun q hq => by
    have : q ≠ r := by simpa using hq
    simp [State.writeRegCC, State.reg_setReg_ne s r q v this]
  cc := ccOf_describes v
  pc := rfl
  pred := rfl
  quiet := ⟨rfl, rfl, fun _ => rfl, rfl, rfl, rfl⟩

/-! ### Ports and the run bit -/

/-- One input poll: the answer, the port one poll further, the call in the sequence, nothing else (R150). -/
theorem State.inPoll_spec (s : State) :
    s.inPoll.1 = s.input.next ∧ SameCpu s s.inPoll.2 ∧ SameMemory s s.inPoll.2 ∧
    s.inPoll.2.input = s.input.afterPoll ∧ s.inPoll.2.output = s.output ∧
    s.inPoll.2.log = .inPoll s.input.next :: s.log :=
  ⟨rfl, ⟨fun _ _ => rfl, rfl, rfl, rfl, rfl, rfl⟩, fun _ => rfl, rfl, rfl, rfl⟩

/-- One output write: the answer, the port one write further, the call in the sequence, nothing else (R151). -/
theorem State.outWrite_spec (s : State) (bytes : List Byte) :
    (s.outWrite bytes).1 = s.output.next ∧ SameCpu s (s.outWrite bytes).2 ∧ SameMemory s (s.outWrite bytes).2 ∧
    (s.outWrite bytes).2.input = s.input ∧ (s.outWrite bytes).2.output = s.output.afterWrite ∧
    (s.outWrite bytes).2.log = .outWrite bytes s.output.next :: s.log :=
  ⟨rfl, ⟨fun _ _ => rfl, rfl, rfl, rfl, rfl, rfl⟩, fun _ => rfl, rfl, rfl, rfl⟩

/-- Clearing the run bit: bit 15 of the CLK word becomes 0, its other bits and every other word stay (R35, R147). -/
theorem State.clearRun_spec (s : State) :
    SameCpu s s.clearRun ∧ SamePorts s s.clearRun ∧ s.clearRun.running = false ∧
    ∀ a, s.clearRun.word a = if a = s.cfg.clkAddr then s.word a &&& 0x7FFF#16 else s.word a := by
  have hw : ∀ a, s.clearRun.word a = if a = s.cfg.clkAddr then s.word a &&& 0x7FFF#16 else s.word a := by
    intro a
    simp only [State.clearRun, State.word_setWord]
    split
    · next h => rw [h]
    · rfl
  refine ⟨⟨fun _ _ => rfl, rfl, rfl, rfl, rfl, rfl⟩, ⟨rfl, rfl, rfl⟩, ?_, hw⟩
  have : s.clearRun.word s.clearRun.cfg.clkAddr = s.word s.cfg.clkAddr &&& 0x7FFF#16 := by
    simp [State.clearRun]
  simp [State.running, this]

/-! ### The memory interface -/

/-- A KBSR read by the answer of its poll (R35). -/
theorem State.kbsrRead_spec (s : State) :
    SameCpu s s.kbsrRead.2 ∧ s.kbsrRead.2.input = s.input.afterPoll ∧ s.kbsrRead.2.output = s.output ∧
    match s.input.next with
    | .byte b => s.kbsrRead.1 = 0x8000#16 ∧ s.kbsrRead.2.log = .inPoll (.byte b) :: s.log ∧
        ∀ a, s.kbsrRead.2.word a = if a = s.cfg.kbdrAddr then zext b else s.word a
    | .empty => s.kbsrRead.1 = 0x0000#16 ∧ s.kbsrRead.2.log = .inPoll .empty :: s.log ∧ SameMemory s s.kbsrRead.2
    | .exhausted => s.kbsrRead.1 = 0x0000#16 ∧
        s.kbsrRead.2.log = .diag .moreInputRequired :: .inPoll .exhausted :: s.log ∧
        ∀ a, s.kbsrRead.2.word a = if a = s.cfg.clkAddr then s.word a &&& 0x7FFF#16 else s.word a
    | .cancelled => s.kbsrRead.1 = 0x0000#16 ∧
        s.kbsrRead.2.log = .diag .userCancelled :: .inPoll .cancelled :: s.log ∧
        ∀ a, s.kbsrRead.2.word a = if a = s.cfg.clkAddr then s.word a &&& 0x7FFF#16 else s.word a := by
  obtain ⟨hans, hcpu, hmem, hin, hout, hlog⟩ := s.inPoll_spec
  obtain ⟨ccpu, cports, -, cword⟩ := s.inPoll.2.clearRun_spec
  unfold State.kbsrRead
  rw [hans]
  rw [hcpu.cfg] at cword
  cases hn : s.input.next <;> rw [hn] at hlog <;> dsimp only [State.kbsrAnswer]
  · refine ⟨hcpu.trans ⟨fun _ _ => rfl, rfl, rfl, rfl, rfl, rfl⟩, hin, hout, rfl, hlog, fun a => ?_⟩
    rw [State.word_setWord, hcpu.cfg, hmem a]
  · exact ⟨hcpu, hin, hout, rfl, hlog, hmem⟩
  · refine ⟨hcpu.trans ⟨fun _ _ => rfl, rfl, rfl, rfl, rfl, rfl⟩, hin, hout, rfl, ?_, fun a => ?_⟩
    · rw [State.call_log, cports.2.2, hlog]
    · rw [State.word_call, cword, hmem a]
  · refine ⟨hcpu.trans ⟨fun _ _ => rfl, rfl, rfl, rfl, rfl, rfl⟩, hin, hout, rfl, ?_, fun a => ?_⟩
    · rw [State.call_log, cports.2.2, hlog]
    · rw [State.word_call, cword, hmem a]

/-- A KBDR read (R37). -/
theorem State.kbdrRead_spec (s : State) :
    s.kbdrRead.1 = s.word s.cfg.kbdrAddr ∧ SameCpu s s.kbdrRead.2 ∧ SamePorts s s.kbdrRead.2 ∧
    ∀ a, s.kbdrRead.2.word a = if s.cfg.kbdrReadClears ∧ a = s.cfg.kbdrAddr then 0x0000#16 else s.word a := by
  unfold State.kbdrRead
  by_cases h : s.cfg.kbdrReadClears
  · simp only [h, if_true, true_and]
    exact ⟨⟨fun _ _ => rfl, rfl, rfl, rfl, rfl, rfl⟩, ⟨rfl, rfl, rfl⟩, fun a => State.word_setWord s _ a _⟩
  · simp only [h]
    exact ⟨trivial, ⟨fun _ _ => rfl, rfl, rfl, rfl, rfl, rfl⟩, ⟨rfl, rfl, rfl⟩, fun _ => by simp⟩

theorem State.kbdrRead_clears (s : State) (h : s.cfg.kbdrReadClears = true) :
    s.kbdrRead = (s.word s.cfg.kbdrAddr, s.setWord s.cfg.kbdrAddr 0x0000#16) := by
  simp [State.kbdrRead, h]

theorem State.kbdrRead_keeps (s : State) (h : s.cfg.kbdrReadClears = false) :
    s.kbdrRead = (s.word s.cfg.kbdrAddr, s) := by
  simp [State.kbdrRead, h]

theorem State.memRead_kbsr (s : State) (a : Word) (h : a = s.cfg.kbsrAddr) : s.memRead a = s.kbsrRead := by
  simp [State.memRead, h]

theorem State.memRead_kbdr (s : State) (a : Word) (h₁ : a ≠ s.cfg.kbsrAddr) (h : a = s.cfg.kbdrAddr) :
    s.memRead a = s.kbdrRead := by
  unfold State.memRead; rw [if_neg h₁, if_pos h]

theorem State.memRead_ddr (s : State) (a : Word) (h₁ : a ≠ s.cfg.kbsrAddr) (h₂ : a ≠ s.cfg.kbdrAddr)
    (h : a = s.cfg.ddrAddr) : s.memRead a = (0x0000#16, s) := by
  unfold State.memRead; rw [if_neg h₁, if_neg h₂, if_pos h]

/-- A read with no device behind it but stored content: the word, and nothing happens (R39, R43, R44). -/
theorem State.memRead_stored (s : State) (a : Word) (h₁ : a ≠ s.cfg.kbsrAddr) (h₂ : a ≠ s.cfg.kbdrAddr)
    (h₃ : a ≠ s.cfg.ddrAddr) : s.memRead a = (s.word a, s) := by
  simp [State.memRead, h₁, h₂, h₃]

/-- Every MemRead is one of a KBSR read, a KBDR read, a DDR read and a stored read (R33). -/
theorem State.memRead_cases (s : State) (a : Word) :
    (a = s.cfg.kbsrAddr ∧ s.memRead a = s.kbsrRead) ∨
    (a ≠ s.cfg.kbsrAddr ∧ a = s.cfg.kbdrAddr ∧ s.memRead a = s.kbdrRead) ∨
    (a ≠ s.cfg.kbsrAddr ∧ a ≠ s.cfg.kbdrAddr ∧ a = s.cfg.ddrAddr ∧ s.memRead a = (0x0000#16, s)) ∨
    (a ≠ s.cfg.kbsrAddr ∧ a ≠ s.cfg.kbdrAddr ∧ a ≠ s.cfg.ddrAddr ∧ s.memRead a = (s.word a, s)) := by
  unfold State.memRead
  split
  · next h => exact .inl ⟨h, rfl⟩
  · next h₁ =>
    split
    · next h => exact .inr (.inl ⟨h₁, h, rfl⟩)
    · next h₂ =>
      split
      · next h => exact .inr (.inr (.inl ⟨h₁, h₂, h, rfl⟩))
      · next h₃ => exact .inr (.inr (.inr ⟨h₁, h₂, h₃, rfl⟩))

/-- A MemRead leaves registers, PC, IR, condition code, predictor and parameters alone, and the output port. -/
theorem State.memRead_cpu (s : State) (a : Word) :
    SameCpu s (s.memRead a).2 ∧ (s.memRead a).2.output = s.output := by
  rcases s.memRead_cases a with ⟨-, h⟩ | ⟨-, -, h⟩ | ⟨-, -, -, h⟩ | ⟨-, -, -, h⟩ <;> rw [h]
  · exact ⟨s.kbsrRead_spec.1, s.kbsrRead_spec.2.2.1⟩
  · exact ⟨s.kbdrRead_spec.2.1, s.kbdrRead_spec.2.2.1.2.1⟩
  · exact ⟨⟨fun _ _ => rfl, rfl, rfl, rfl, rfl, rfl⟩, rfl⟩
  · exact ⟨⟨fun _ _ => rfl, rfl, rfl, rfl, rfl, rfl⟩, rfl⟩

/-- A MemRead changes no word but those of KBDR and CLK (R47). -/
theorem State.memRead_word (s : State) (a b : Word) (h₁ : b ≠ s.cfg.kbdrAddr) (h₂ : b ≠ s.cfg.clkAddr) :
    (s.memRead a).2.word b = s.word b := by
  rcases s.memRead_cases a with ⟨-, h⟩ | ⟨-, -, h⟩ | ⟨-, -, -, h⟩ | ⟨-, -, -, h⟩ <;> rw [h]
  · have hk := s.kbsrRead_spec.2.2.2
    revert hk
    cases s.input.next <;> intro hk
    · simpa [h₁] using hk.2.2 b
    · exact hk.2.2 b
    · simpa [h₂] using hk.2.2 b
    · simpa [h₂] using hk.2.2 b
  · have := s.kbdrRead_spec.2.2.2 b
    simpa [h₁] using this

/-- A MemRead leaves the CLK word alone or clears its run bit (R35, R43). -/
theorem State.memRead_clkWord (s : State) (a : Word) (hd : s.cfg.kbdrAddr ≠ s.cfg.clkAddr) :
    (s.memRead a).2.word s.cfg.clkAddr = s.word s.cfg.clkAddr ∨ (s.memRead a).2.running = false := by
  have halts : ∀ {t : State}, SameCpu s t → t.word s.cfg.clkAddr = s.word s.cfg.clkAddr &&& 0x7FFF#16 →
      t.running = false := by
    intro t hc hw
    simp [State.running, hc.cfg, hw]
  rcases s.memRead_cases a with ⟨-, h⟩ | ⟨-, -, h⟩ | ⟨-, -, -, h⟩ | ⟨-, -, -, h⟩ <;> rw [h]
  · obtain ⟨hc, -, -, hk⟩ := s.kbsrRead_spec
    revert hk
    cases s.input.next <;> intro hk
    · exact .inl (by simpa [hd.symm] using hk.2.2 s.cfg.clkAddr)
    · exact .inl (hk.2.2 _)
    · exact .inr (halts hc (by simpa using hk.2.2 s.cfg.clkAddr))
    · exact .inr (halts hc (by simpa using hk.2.2 s.cfg.clkAddr))
  · exact .inl (by simpa [hd.symm] using s.kbdrRead_spec.2.2.2 s.cfg.clkAddr)
  · exact .inl rfl
  · exact .inl rfl

/-- A DDR write: the port call, DDR zero, DSR by the answer, no other word (R41). -/
theorem State.ddrWrite_spec (s : State) (v : Word) :
    SameCpu s (s.ddrWrite v) ∧ (s.ddrWrite v).input = s.input ∧ (s.ddrWrite v).output = s.output.afterWrite ∧
    (s.ddrWrite v).log = .outWrite (ddrBytes s.cfg.sinkIsTerminal (bits 0 8 v)) s.output.next :: s.log ∧
    ∀ a, (s.ddrWrite v).word a =
      if a = s.cfg.dsrAddr then dsrAfter s.output.next else if a = s.cfg.ddrAddr then 0x0000#16 else s.word a := by
  refine ⟨⟨fun _ _ => rfl, rfl, rfl, rfl, rfl, rfl⟩, rfl, rfl, rfl, fun a => ?_⟩
  simp only [State.ddrWrite, State.word_setWord]
  rfl

/-- Every MemWrite, by class of address (R34). -/
theorem State.memWrite_stores (s : State) (a v : Word) : StoresTo s (s.memWrite a v) a v := by
  unfold State.memWrite
  split
  · next h =>
    obtain ⟨hcpu, hin, hout, hlog, hw⟩ := s.ddrWrite_spec v
    refine ⟨hcpu, hin, fun h1 => absurd h h1, fun h1 => absurd h h1, fun _ hd => ⟨?_, ?_, fun b h1 h2 => ?_, hout, hlog⟩⟩
    · simp [hw, Ne.symm hd]
    · simp [hw]
    · simp [hw, h1, h2]
  · next h =>
    split
    · next h2 =>
      refine ⟨⟨fun _ _ => rfl, rfl, rfl, rfl, rfl, rfl⟩, rfl, fun _ h3 h4 h5 => ?_, fun _ _ => ⟨fun _ => rfl, ⟨rfl, rfl, rfl⟩⟩,
        fun h1 => absurd h1 h⟩
      rcases h2 with h2 | h2 | h2 <;> contradiction
    · next h2 =>
      refine ⟨⟨fun _ _ => rfl, rfl, rfl, rfl, rfl, rfl⟩, rfl, fun _ _ _ _ => ⟨?_, fun b hb => ?_, ⟨rfl, rfl, rfl⟩⟩,
        fun _ h3 => absurd h3 h2, fun h1 => absurd h1 h⟩
      · simp
      · exact State.word_setWord_ne s a b v hb

/-! ### The canonical form of the storage array -/

theorem State.memRead_wf (s : State) (a : Word) (h : s.mem.wf) : (s.memRead a).2.mem.wf := by
  rcases s.memRead_cases a with ⟨-, hr⟩ | ⟨-, -, hr⟩ | ⟨-, -, -, hr⟩ | ⟨-, -, -, hr⟩ <;> rw [hr]
  · unfold State.kbsrRead
    cases s.inPoll.1
    · exact State.setWord_wf _ _ _ h
    · exact h
    · exact State.setWord_wf _ _ _ h
    · exact State.setWord_wf _ _ _ h
  · unfold State.kbdrRead
    by_cases hc : s.cfg.kbdrReadClears
    · simp only [hc, if_true]; exact State.setWord_wf _ _ _ h
    · simpa [hc] using h
  · exact h
  · exact h

theorem State.memWrite_wf (s : State) (a v : Word) (h : s.mem.wf) : (s.memWrite a v).mem.wf := by
  unfold State.memWrite
  split
  · exact State.setWord_wf _ _ _ (State.setWord_wf _ _ _ h)
  · split
    · exact h
    · exact State.setWord_wf _ _ _ h

theorem State.resetMem_wf (c : Config) : (State.resetMem c).wf :=
  Memory.write_wf _ _ _ (Memory.write_wf _ _ _ Memory.empty_wf)

theorem State.storeImage_wf (s : State) (origin : Word) (words : List Word) (h : s.mem.wf) :
    (s.storeImage origin words).mem.wf := by
  induction words generalizing s origin with
  | nil => exact h
  | cons w rest ih => exact ih _ _ (State.setWord_wf _ _ _ h)

/-! ### The shared parts of a cycle -/

/-- The fetch step: IR is the word read, the PC is incremented, the rest is as the read leaves it (R92). -/
theorem State.fetch_spec (s : State) :
    s.fetch.ir = (s.memRead s.pc).1 ∧ s.fetch.pc = s.pc + 1 ∧ SameRegsBut [] s s.fetch ∧ s.fetch.cc = s.cc ∧
    s.fetch.pred = s.pred ∧ s.fetch.cfg = s.cfg ∧ SameMemory (s.memRead s.pc).2 s.fetch ∧
    SamePorts (s.memRead s.pc).2 s.fetch := by
  have h := (s.memRead_cpu s.pc).1
  exact ⟨rfl, rfl, h.regs, h.cc, h.pred, h.cfg, fun _ => rfl, rfl, rfl, rfl⟩

/-- Trap entry (R143): the link, the new PC, and the effects of reading the vector word. -/
theorem State.trapEntry_spec (s : State) (vect : BitVec 8) :
    (s.trapEntry vect).pc = (s.link.memRead (zext vect)).1 ∧ (s.trapEntry vect).reg linkReg = s.pc ∧
    SameRegsBut [linkReg] s (s.trapEntry vect) ∧ (s.trapEntry vect).cc = s.cc ∧ (s.trapEntry vect).ir = s.ir ∧
    (s.trapEntry vect).pred = s.pred ∧ (s.trapEntry vect).cfg = s.cfg ∧
    SameMemory (s.link.memRead (zext vect)).2 (s.trapEntry vect) ∧
    SamePorts (s.link.memRead (zext vect)).2 (s.trapEntry vect) := by
  have h := (s.link.memRead_cpu (zext vect)).1
  refine ⟨rfl, ?_, fun r hr => ?_, h.cc, h.ir, h.pred, h.cfg, fun _ => rfl, rfl, rfl, rfl⟩
  · exact (h.reg linkReg).trans (State.reg_setReg_self s linkReg s.pc)
  · exact (h.reg r).trans (State.reg_setReg_ne s linkReg r s.pc (by simpa using hr))

/-- The trace step changes only the sequence of port calls (R95). -/
theorem State.traceStep_spec (s : State) :
    SameCpu s s.traceStep ∧ SameMemory s s.traceStep ∧ s.traceStep.input = s.input ∧
    s.traceStep.output = s.output ∧ s.traceStep.log = s.traceCalls ++ s.log :=
  ⟨⟨fun _ _ => rfl, rfl, rfl, rfl, rfl, rfl⟩, fun _ => rfl, rfl, rfl, rfl⟩

end Sys2Proof.Machine
end

