-- ==== Sys2Proof/Laws/Exec.lean ====
section
/-! SUPPORT. What an execute step and a cycle can do, once: the inversion of the step, the reads an instruction makes,
and the one store it may make. -/

namespace Sys2Proof.Machine

/-! ### The inversion of the step -/

/-- A step of a running machine is the traced execute step of the fetched instruction (R91). -/
theorem step_running {s t : State} (hr : s.running = true) (h : step s = .next t) :
    ∃ u, exec (decode s.fetch.ir) s.fetch = .next u ∧ t = u.traceStep := by
  unfold step cycle at h
  rw [if_pos hr] at h
  cases he : exec (decode s.fetch.ir) s.fetch with
  | next u => rw [he] at h; injection h with h; exact ⟨u, rfl, h.symm⟩
  | fault r => rw [he] at h; cases h
  | refused r => rw [he] at h; cases h

/-- A step of a halted machine changes nothing (log entry 7). -/
theorem step_halted {s : State} (hr : s.running = false) : step s = .next s := by
  unfold step; simp [hr]

/-! ### Reads commute with register writes -/

/-- What a read returns and does is independent of the registers. -/
theorem State.memRead_setReg (s : State) (r : Reg) (v a : Word) :
    (s.setReg r v).memRead a = ((s.memRead a).1, (s.memRead a).2.setReg r v) := by
  rcases s.memRead_cases a with ⟨h, e⟩ | ⟨h₁, h, e⟩ | ⟨h₁, h₂, h, e⟩ | ⟨h₁, h₂, h₃, e⟩
  · rw [State.memRead_kbsr (s.setReg r v) a h, e]
    simp only [State.kbsrRead, State.inPoll, State.setReg_input]
    cases s.input.next <;> rfl
  · rw [State.memRead_kbdr (s.setReg r v) a h₁ h, e]
    cases hc : s.cfg.kbdrReadClears
    · rw [State.kbdrRead_keeps (s.setReg r v) hc, s.kbdrRead_keeps hc]; rfl
    · rw [State.kbdrRead_clears (s.setReg r v) hc, s.kbdrRead_clears hc]; rfl
  · rw [State.memRead_ddr (s.setReg r v) a h₁ h₂ h, e]
  · rw [State.memRead_stored (s.setReg r v) a h₁ h₂ h₃, e]; rfl

/-! ### Reads and the one store -/

/-- `m` is `s` after some MemReads, in the order made. -/
inductive ReadsTo : State → State → Prop where
  | refl (s : State) : ReadsTo s s
  | read (s m : State) (a : Word) (h : ReadsTo s m) : ReadsTo s (m.memRead a).2

theorem ReadsTo.one (s : State) (a : Word) : ReadsTo s (s.memRead a).2 := .read s s a (.refl s)

theorem ReadsTo.trans {s m u : State} (h : ReadsTo s m) (k : ReadsTo m u) : ReadsTo s u := by
  induction k with
  | refl => exact h
  | read u a _ ih => exact .read s u a ih

theorem ReadsTo.cpu {s m : State} (h : ReadsTo s m) : SameCpu s m := by
  induction h with
  | refl => exact SameCpu.refl s
  | read m a _ ih => exact ih.trans (m.memRead_cpu a).1

/-- Reads only add to the sequence of port calls. -/
theorem ReadsTo.log {s m : State} (h : ReadsTo s m) : ∃ calls, m.log = calls ++ s.log := by
  induction h with
  | refl => exact ⟨[], rfl⟩
  | read m a _ ih =>
    obtain ⟨calls, hc⟩ := ih
    rcases m.memRead_cases a with ⟨-, h⟩ | ⟨-, -, h⟩ | ⟨-, -, -, h⟩ | ⟨-, -, -, h⟩ <;> rw [h]
    · have := m.kbsrRead_spec.2.2.2
      revert this
      cases m.input.next <;> intro this <;> rw [this.2.1, hc]
      · exact ⟨_ :: calls, rfl⟩
      · exact ⟨_ :: calls, rfl⟩
      · exact ⟨_ :: _ :: calls, rfl⟩
      · exact ⟨_ :: _ :: calls, rfl⟩
    · exact ⟨calls, m.kbdrRead_spec.2.2.1.2.2.trans hc⟩
    · exact ⟨calls, hc⟩
    · exact ⟨calls, hc⟩

/-- Reads change no word but those of KBDR and CLK. -/
theorem ReadsTo.word {s m : State} (h : ReadsTo s m) (b : Word) (h₁ : b ≠ s.cfg.kbdrAddr)
    (h₂ : b ≠ s.cfg.clkAddr) : m.word b = s.word b := by
  induction h with
  | refl => rfl
  | read m a h ih =>
    have hc := h.cpu.cfg
    rw [m.memRead_word a b (by rwa [hc]) (by rwa [hc]), ih]

/-- Reads leave the CLK word alone or clear its run bit (R35, R43). -/
theorem ReadsTo.clkWord {s m : State} (h : ReadsTo s m) (hd : s.cfg.kbdrAddr ≠ s.cfg.clkAddr) :
    m.word s.cfg.clkAddr = s.word s.cfg.clkAddr ∨ m.running = false := by
  induction h with
  | refl => exact .inl rfl
  | read m a h ih =>
    have hc := h.cpu.cfg
    have keeps : (m.memRead a).2.word m.cfg.clkAddr = m.word m.cfg.clkAddr ∨ (m.memRead a).2.running = false :=
      m.memRead_clkWord a (by rwa [hc])
    rcases keeps with k | k
    · refine ih.imp (fun e => by rw [← hc, k, hc, e]) fun e => ?_
      rw [State.running, (m.memRead_cpu a).1.cfg, k]; exact e
    · exact .inr k

theorem ReadsTo.wf {s m : State} (h : ReadsTo s m) (hw : s.mem.wf) : m.mem.wf := by
  induction h with
  | refl => exact hw
  | read m a _ ih => exact m.memRead_wf a ih

/-- What an execute step does to memory and ports: it reads, then makes its one store, if it has one (R46, R49). -/
theorem exec_memory (i : Instr) (s t : State) (h : exec i s = .next t) :
    ∃ m, ReadsTo s m ∧ (storeOf s i = none → SameMemory m t ∧ SamePorts m t ∧ t.mem = m.mem) ∧
      ∀ a v, storeOf s i = some (a, v) → t = m.memWrite a v := by
  have same : ∀ {m u : State}, u.mem = m.mem → u.input = m.input → u.output = m.output → u.log = m.log →
      SameMemory m u ∧ SamePorts m u ∧ u.mem = m.mem := by
    intro m u h₁ h₂ h₃ h₄
    exact ⟨fun a => by simp [State.word, h₁], ⟨h₂, h₃, h₄⟩, h₁⟩
  cases i <;> injection h with h <;> subst h
  case st => exact ⟨s, .refl s, by simp [storeOf], fun a v e => by simp [storeOf] at e; rw [← e.1, ← e.2]⟩
  case str => exact ⟨s, .refl s, by simp [storeOf], fun a v e => by simp [storeOf] at e; rw [← e.1, ← e.2]⟩
  case sti sr off =>
    exact ⟨_, .one s (s.eaPc off), by simp [storeOf], fun a v e => by
      simp [storeOf] at e; rw [← e.1, ← e.2]; rfl⟩
  case ld dr off => exact ⟨_, .one s (s.eaPc off), fun _ => same rfl rfl rfl rfl, by simp [storeOf]⟩
  case ldr dr base off => exact ⟨_, .one s (s.eaBase base off), fun _ => same rfl rfl rfl rfl, by simp [storeOf]⟩
  case ldi dr off =>
    exact ⟨_, (ReadsTo.one s (s.eaPc off)).trans (.one _ (s.eaInd off).1), fun _ => same rfl rfl rfl rfl,
      by simp [storeOf]⟩
  case trap vect =>
    refine ⟨_, .one s (zext vect), fun _ => ?_, by simp [storeOf]⟩
    simp only [State.trapEntry, State.link, State.memRead_setReg]
    exact same rfl rfl rfl rfl
  all_goals exact ⟨s, .refl s, fun _ => same rfl rfl rfl rfl, by simp [storeOf]⟩

/-! ### Registers, condition code, IR, parameters -/

/-- What an execute step does to the registers of the processor: no register but its destination, no condition code but
by the seven instructions, never IR or the parameters (R12, R14, R17). -/
theorem exec_cpu (i : Instr) (s t : State) (h : exec i s = .next t) :
    (∀ r, destOf i ≠ some r → t.reg r = s.reg r) ∧ t.ir = s.ir ∧ t.cfg = s.cfg ∧
    (setsCC i = true → ∃ dr, destOf i = some dr ∧ CcDescribes t.cc (t.reg dr)) ∧
    (setsCC i = false → t.cc = s.cc) := by
  have writes : ∀ {m : State} {dr : Reg} {v : Word}, SameCpu s m → ∀ {u : State}, WritesReg m u dr v →
      (∀ r, some dr ≠ some r → u.reg r = s.reg r) ∧ u.ir = s.ir ∧ u.cfg = s.cfg ∧
      (true = true → ∃ d, some dr = some d ∧ CcDescribes u.cc (u.reg d)) ∧ (true = false → u.cc = s.cc) := by
    intro m dr v hm u hw
    refine ⟨fun r hr => ?_, hw.quiet.ir.trans hm.ir, hw.quiet.cfg.trans hm.cfg,
      fun _ => ⟨dr, rfl, by rw [hw.dest]; exact hw.cc⟩, fun hf => by cases hf⟩
    exact (hw.others r (by simpa [eq_comm] using hr)).trans (hm.reg r)
  have stores : ∀ {m u : State} {a v : Word}, SameCpu s m → StoresTo m u a v →
      (∀ r, (none : Option Reg) ≠ some r → u.reg r = s.reg r) ∧ u.ir = s.ir ∧ u.cfg = s.cfg ∧
      (false = true → ∃ d, (none : Option Reg) = some d ∧ CcDescribes u.cc (u.reg d)) ∧ (false = false → u.cc = s.cc) := by
    intro m u a v hm hw
    have := hm.trans hw.cpu
    exact ⟨fun r _ => this.reg r, this.ir, this.cfg, (fun hf => by cases hf), fun _ => this.cc⟩
  have rd : ∀ a, SameCpu s (s.memRead a).2 := fun a => (s.memRead_cpu a).1
  have link : ∀ {a : Word} (r : Reg), some linkReg ≠ some r → (s.link.setPc a).reg r = s.reg r := by
    intro a r hr
    exact State.reg_setReg_ne s linkReg r s.pc (by simpa [eq_comm] using hr)
  cases i <;> injection h with h <;> subst h
  case addReg => exact writes (SameCpu.refl s) (State.writeRegCC_writes _ _ _)
  case addImm => exact writes (SameCpu.refl s) (State.writeRegCC_writes _ _ _)
  case andReg => exact writes (SameCpu.refl s) (State.writeRegCC_writes _ _ _)
  case andImm => exact writes (SameCpu.refl s) (State.writeRegCC_writes _ _ _)
  case not => exact writes (SameCpu.refl s) (State.writeRegCC_writes _ _ _)
  case lea => exact writes (SameCpu.refl s) (State.writeRegCC_writes _ _ _)
  case ld => exact writes (rd _) (State.writeRegCC_writes _ _ _)
  case ldr => exact writes (rd _) (State.writeRegCC_writes _ _ _)
  case ldi => exact writes ((rd _).trans (State.memRead_cpu _ _).1) (State.writeRegCC_writes _ _ _)
  case st => exact stores (SameCpu.refl s) (State.memWrite_stores _ _ _)
  case str => exact stores (SameCpu.refl s) (State.memWrite_stores _ _ _)
  case sti => exact stores (rd _) (State.memWrite_stores _ _ _)
  case jsr => exact ⟨fun r => link r, rfl, rfl, (fun hf => by cases hf), fun _ => rfl⟩
  case jsrr => exact ⟨fun r => link r, rfl, rfl, (fun hf => by cases hf), fun _ => rfl⟩
  case trap vect =>
    obtain ⟨-, -, hr, hcc, hir, -, hcfg, -, -⟩ := s.trapEntry_spec vect
    exact ⟨fun r hn => hr r (by simpa [destOf, eq_comm] using hn), hir, hcfg, (fun hf => by cases hf), fun _ => hcc⟩
  all_goals exact ⟨fun _ _ => rfl, rfl, rfl, (fun hf => by cases hf), fun _ => rfl⟩

end Sys2Proof.Machine
end

