-- ==== Sys2Proof/Laws/Inv.lean ====
section
/-! SUPPORT. The device-register addresses apart from each other, and the invariant over the memory interface. -/

namespace Sys2Proof.Machine

/-- A plain address is none of the five. -/
theorem isDevice_false {c : Config} {a : Word} (h : c.isDevice a = false) :
    a ≠ c.kbsrAddr ∧ a ≠ c.kbdrAddr ∧ a ≠ c.dsrAddr ∧ a ≠ c.ddrAddr ∧ a ≠ c.clkAddr := by
  simpa [Config.isDevice] using h

/-- The five addresses, pairwise apart (R3). -/
theorem distinct_ne {c : Config} (h : c.Distinct) :
    c.kbsrAddr ≠ c.kbdrAddr ∧ c.kbsrAddr ≠ c.dsrAddr ∧ c.kbsrAddr ≠ c.ddrAddr ∧ c.kbsrAddr ≠ c.clkAddr ∧
    c.kbdrAddr ≠ c.dsrAddr ∧ c.kbdrAddr ≠ c.ddrAddr ∧ c.kbdrAddr ≠ c.clkAddr ∧
    c.dsrAddr ≠ c.ddrAddr ∧ c.dsrAddr ≠ c.clkAddr ∧ c.ddrAddr ≠ c.clkAddr := by
  simp [Config.Distinct] at h; tauto

/-- The invariant looks at the parameters and the storage array alone. -/
theorem Inv.congr {s t : State} (h : Inv s) (hc : t.cfg = s.cfg) (hm : t.mem = s.mem) : Inv t := by
  have hw : ∀ a, t.word a = s.word a := fun a => by simp [State.word, hm]
  exact ⟨by rw [hc]; exact h.distinct, by rw [hm]; exact h.memWf, by rw [hw, hc]; exact h.ddr,
    by rw [hw, hc]; exact h.dsr, by rw [hw, hc]; exact h.kbdr⟩

/-- A MemRead keeps the invariant. -/
theorem Inv.memRead {s : State} (h : Inv s) (a : Word) : Inv (s.memRead a).2 := by
  obtain ⟨-, -, -, -, k5, k6, k7, -, k9, k10⟩ := distinct_ne h.distinct
  have hc := (s.memRead_cpu a).1.cfg
  refine ⟨by rw [hc]; exact h.distinct, s.memRead_wf a h.memWf, ?_, ?_, ?_⟩ <;> rw [hc]
  · rw [s.memRead_word a _ k6.symm k10]; exact h.ddr
  · rw [s.memRead_word a _ k5.symm k9]; exact h.dsr
  · rcases s.memRead_cases a with ⟨-, e⟩ | ⟨-, -, e⟩ | ⟨-, -, -, e⟩ | ⟨-, -, -, e⟩ <;> rw [e]
    · have := s.kbsrRead_spec.2.2.2
      revert this
      cases s.input.next with
      | byte b =>
        intro this
        rw [this.2.2, if_pos rfl]
        have := b.isLt
        simp [zext]; omega
      | empty => intro this; rw [this.2.2]; exact h.kbdr
      | exhausted => intro this; rw [this.2.2, if_neg k7]; exact h.kbdr
      | cancelled => intro this; rw [this.2.2, if_neg k7]; exact h.kbdr
    · rw [s.kbdrRead_spec.2.2.2]
      split
      · simp
      · exact h.kbdr
    · exact h.kbdr
    · exact h.kbdr

/-- A MemWrite keeps the invariant. -/
theorem Inv.memWrite {s : State} (h : Inv s) (a v : Word) : Inv (s.memWrite a v) := by
  obtain ⟨-, -, -, -, k5, k6, -, k8, -, -⟩ := distinct_ne h.distinct
  have hc := (s.memWrite_stores a v).cpu.cfg
  refine ⟨by rw [hc]; exact h.distinct, s.memWrite_wf a v h.memWf, ?_, ?_, ?_⟩ <;> rw [hc] <;>
    unfold State.memWrite <;> split
  · rw [(s.ddrWrite_spec v).2.2.2.2]; simp [k8.symm]
  · split
    · exact h.ddr
    · next h₁ _ => rw [State.word_setWord_ne _ _ _ _ (Ne.symm h₁)]; exact h.ddr
  · rw [(s.ddrWrite_spec v).2.2.2.2, if_pos rfl]; cases s.output.next <;> simp [dsrAfter]
  · split
    · exact h.dsr
    · next h₂ => rw [State.word_setWord_ne _ _ _ _ (fun e => h₂ (.inr (.inr e.symm)))]; exact h.dsr
  · rw [(s.ddrWrite_spec v).2.2.2.2, if_neg k5, if_neg k6]; exact h.kbdr
  · split
    · exact h.kbdr
    · next h₂ => rw [State.word_setWord_ne _ _ _ _ (fun e => h₂ (.inr (.inl e.symm)))]; exact h.kbdr

end Sys2Proof.Machine
end

