-- ==== Sys2Proof/Laws/PerInstr.lean ====
section
/-! SUPPORT. Statements about the instruction as syntax, one lemma per constructor of Instr. The family EncodeOpcode:
bits 15 to 12 of an encoded instruction are the instruction's opcode (spec/30_encoding.md rules R60, R68, R80). -/

namespace Sys2Proof.Laws.EncodeOpcode

/-- Bits 15 to 12 of the encoding are the opcode. -/
def Statement (i : Instr) : Prop := bits 12 4 (encode i) = opcodeOf i

/-- It is enough that the operand bits leave bits 15 to 12 at 0. -/
theorem of_operandBits (i : Instr) (h : bits 12 4 (operandBits i) = 0#4) : Statement i := by
  unfold Statement encode
  rw [bits_or, h, bits_put 12 (opcodeOf i) (by decide), BitVec.or_zero]

theorem br (n z p : Bool) (off : Word) : Statement (.br n z p off) :=
  of_operandBits _ (by ext i hi; interval_cases i <;> simp [operandBits, fieldTable])

theorem addReg (dr sr1 sr2 : Reg) : Statement (.addReg dr sr1 sr2) :=
  of_operandBits _ (by ext i hi; interval_cases i <;> simp [operandBits, fieldTable])

theorem addImm (dr sr1 : Reg) (imm : Word) : Statement (.addImm dr sr1 imm) :=
  of_operandBits _ (by ext i hi; interval_cases i <;> simp [operandBits, fieldTable])

theorem ld (dr : Reg) (off : Word) : Statement (.ld dr off) :=
  of_operandBits _ (by ext i hi; interval_cases i <;> simp [operandBits])

theorem st (sr : Reg) (off : Word) : Statement (.st sr off) :=
  of_operandBits _ (by ext i hi; interval_cases i <;> simp [operandBits])

theorem jsr (off : Word) : Statement (.jsr off) :=
  of_operandBits _ (by ext i hi; interval_cases i <;> simp [operandBits, fieldTable])

theorem jsrr (base : Reg) : Statement (.jsrr base) :=
  of_operandBits _ (by ext i hi; interval_cases i <;> simp [operandBits, fieldTable])

theorem andReg (dr sr1 sr2 : Reg) : Statement (.andReg dr sr1 sr2) :=
  of_operandBits _ (by ext i hi; interval_cases i <;> simp [operandBits, fieldTable])

theorem andImm (dr sr1 : Reg) (imm : Word) : Statement (.andImm dr sr1 imm) :=
  of_operandBits _ (by ext i hi; interval_cases i <;> simp [operandBits, fieldTable])

theorem ldr (dr base : Reg) (off : Word) : Statement (.ldr dr base off) :=
  of_operandBits _ (by ext i hi; interval_cases i <;> simp [operandBits])

theorem str (sr base : Reg) (off : Word) : Statement (.str sr base off) :=
  of_operandBits _ (by ext i hi; interval_cases i <;> simp [operandBits])

theorem rti : Statement .rti :=
  of_operandBits _ rfl

theorem not (dr sr : Reg) : Statement (.not dr sr) :=
  of_operandBits _ (by ext i hi; interval_cases i <;> simp [operandBits, fieldTable])

theorem ldi (dr : Reg) (off : Word) : Statement (.ldi dr off) :=
  of_operandBits _ (by ext i hi; interval_cases i <;> simp [operandBits])

theorem sti (sr : Reg) (off : Word) : Statement (.sti sr off) :=
  of_operandBits _ (by ext i hi; interval_cases i <;> simp [operandBits])

theorem jmp (base : Reg) : Statement (.jmp base) :=
  of_operandBits _ (by ext i hi; interval_cases i <;> simp [operandBits, fieldTable])

theorem reserved (low12 : BitVec 12) : Statement (.reserved low12) :=
  of_operandBits _ (by ext i hi; interval_cases i <;> simp [operandBits])

theorem lea (dr : Reg) (off : Word) : Statement (.lea dr off) :=
  of_operandBits _ (by ext i hi; interval_cases i <;> simp [operandBits])

theorem trap (vect : BitVec 8) : Statement (.trap vect) :=
  of_operandBits _ (by ext i hi; interval_cases i <;> simp [operandBits, fieldTable])

end Sys2Proof.Laws.EncodeOpcode
end

