-- ==== Sys2Proof/Tests/Slice0.lean ====
section
/-! SUPPORT. Tests. Every expected result is a vector of spec/95_test_vectors.md (named in the test's comment) or is
worked by hand from the rule named there. -/

namespace Sys2Proof.Tests

open Sys2Proof.Machine

/-! ### Helpers -/

/-- The parameters of the vectors: the default addresses, tracing off, a terminal sink. -/
def cfg : Config where
  kbsrAddr := 0xFE00#16
  kbdrAddr := 0xFE02#16
  dsrAddr := 0xFE04#16
  ddrAddr := 0xFE06#16
  clkAddr := 0xFFFE#16
  startPc := 0x3000#16
  sinkIsTerminal := true
  kbdrReadClears := false
  predictorWired := false
  predInit := .notTaken
  traceMask := 0x0000#16
  traceUserOnly := false
  traceEnabled := false

/-- The reset state of the vectors with the word `w` under test at `a`, and the PC there. -/
def start (a w : Word) : State := ((State.resetWith cfg).setWord a w).setPc a

/-- The prepared answers of the host. -/
def answers (s : State) (ins : List InAnswer) (outs : List OutAnswer) : State :=
  { s with input := { s.input with answers := ins }, output := { s.output with answers := outs } }

/-- One step, and what is looked at in the next state. -/
def after {α : Type} (s : State) (look : State → α) : Option α :=
  match step s with
  | .next t => some (look t)
  | .fault _ => none
  | .refused _ => none

/-! ### WellFormed: an ill-formed term for each check -/

theorem test_illFormed_br : (Instr.br true true true 0x0100#16).wellFormed = false := by decide
theorem test_illFormed_addImm : (Instr.addImm 0#3 0#3 0x0010#16).wellFormed = false := by decide
theorem test_illFormed_ld : (Instr.ld 0#3 0xFEFF#16).wellFormed = false := by decide
theorem test_illFormed_st : (Instr.st 0#3 0x0100#16).wellFormed = false := by decide
theorem test_illFormed_jsr : (Instr.jsr 0x0400#16).wellFormed = false := by decide
theorem test_illFormed_andImm : (Instr.andImm 0#3 0#3 0xFFEF#16).wellFormed = false := by decide
theorem test_illFormed_ldr : (Instr.ldr 0#3 0#3 0x0020#16).wellFormed = false := by decide
theorem test_illFormed_str : (Instr.str 0#3 0#3 0xFFDF#16).wellFormed = false := by decide
theorem test_illFormed_ldi : (Instr.ldi 0#3 0x0100#16).wellFormed = false := by decide
theorem test_illFormed_sti : (Instr.sti 0#3 0x0100#16).wellFormed = false := by decide
theorem test_illFormed_lea : (Instr.lea 0#3 0x8000#16).wellFormed = false := by decide
theorem test_wellFormed_boundary : (Instr.ldr 0#3 0#3 0xFFE0#16).wellFormed = true ∧ (Instr.ldr 0#3 0#3 0x001F#16).wellFormed = true := by
  decide

/-! ### Decode: words written out bit by bit from R61 (V80 to V99a) -/

theorem test_decode_br : decode 0b0000_101_111111110#16 = .br true false true 0xFFFE#16 := by decide -- V81
theorem test_decode_zero : decode 0x0000#16 = .br false false false 0x0000#16 := by decide -- V80
theorem test_decode_addReg : decode 0b0001_010_011_0_00_100#16 = .addReg 2#3 3#3 4#3 := by decide -- V83
theorem test_decode_addReg_unused : decode 0b0001_000_001_0_11_001#16 = .addReg 0#3 1#3 1#3 := by decide -- V84
theorem test_decode_addImm : decode 0b0001_000_000_1_00101#16 = .addImm 0#3 0#3 0x0005#16 := by decide -- V82
theorem test_decode_ld : decode 0b0010_001_111111111#16 = .ld 1#3 0xFFFF#16 := by decide -- V86
theorem test_decode_st : decode 0b0011_011_000000101#16 = .st 3#3 0x0005#16 := by decide -- V87
theorem test_decode_jsr : decode 0b0100_1_10000000000#16 = .jsr 0xFC00#16 := by decide -- V89
theorem test_decode_jsrr : decode 0b0100_0_11_011_111111#16 = .jsrr 3#3 := by decide -- V91
theorem test_decode_andReg : decode 0b0101_010_011_0_00_100#16 = .andReg 2#3 3#3 4#3 := by decide -- V11
theorem test_decode_andImm : decode 0b0101_000_001_1_10000#16 = .andImm 0#3 1#3 0xFFF0#16 := by decide -- V85
theorem test_decode_ldr : decode 0b0110_001_010_111111#16 = .ldr 1#3 2#3 0xFFFF#16 := by decide -- V92
theorem test_decode_str : decode 0b0111_000_110_000000#16 = .str 0#3 6#3 0x0000#16 := by decide -- V93
theorem test_decode_rti : decode 0b1000_111111111111#16 = .rti := by decide -- V94
theorem test_decode_not : decode 0b1001_001_010_111111#16 = .not 1#3 2#3 := by decide -- V95
theorem test_decode_ldi : decode 0b1010_001_000000001#16 = .ldi 1#3 0x0001#16 := by decide -- V96
theorem test_decode_sti : decode 0b1011_001_000000000#16 = .sti 1#3 0x0000#16 := by decide -- V96a
theorem test_decode_jmp : decode 0b1100_111_000_111111#16 = .jmp 0#3 := by decide -- V97a
theorem test_decode_reserved : decode 0b1101_101010111100#16 = .reserved 0xABC#12 := by decide -- V98
theorem test_decode_lea : decode 0b1110_000_111111101#16 = .lea 0#3 0xFFFD#16 := by decide -- V98a
theorem test_decode_trap : decode 0b1111_1111_11111111#16 = .trap 0xFF#8 := by decide -- V99a

/-! ### Encode (V80 to V99a) -/

theorem test_encode_jsrr : encode (.jsrr 3#3) = 0x40C0#16 := by decide -- V91
theorem test_encode_not : encode (.not 1#3 2#3) = 0x92BF#16 := by decide -- V95a
theorem test_encode_jmp : encode (.jmp 0#3) = 0xC000#16 := by decide -- V97a
theorem test_encode_trap : encode (.trap 0xFF#8) = 0xF0FF#16 := by decide -- V99a
theorem test_encode_rti : encode .rti = 0x8000#16 := by decide -- V94
theorem test_encode_br : encode (.br true false true 0xFFFE#16) = 0x0BFE#16 := by decide -- V81
theorem test_encode_ldr : encode (.ldr 1#3 2#3 0xFFFF#16) = 0x62BF#16 := by decide -- V92
theorem test_encode_andImm : encode (.andImm 0#3 1#3 0xFFF0#16) = 0x5070#16 := by decide -- V85

/-! ### Operate -/

-- V4
theorem test_add_overflow :
    after ((start 0x3000#16 0x1261#16).setReg 1#3 0x7FFF#16) (fun t => (t.reg 1#3, t.cc, t.pc)) =
      some (0x8000#16, .n, 0x3001#16) := by decide
-- V7
theorem test_add_same_register :
    after ((start 0x3000#16 0x16C3#16).setReg 3#3 0x4000#16) (fun t => (t.reg 3#3, t.cc)) = some (0x8000#16, .n) := by
  decide
-- V10
theorem test_and_immediate :
    after ((start 0x3000#16 0x5070#16).setReg 1#3 0xABCD#16) (fun t => (t.reg 0#3, t.cc)) = some (0xABC0#16, .n) := by
  decide
-- V11
theorem test_and_register :
    after (((start 0x3000#16 0x54C4#16).setReg 3#3 0xFF00#16).setReg 4#3 0x0FF0#16) (fun t => (t.reg 2#3, t.cc)) =
      some (0x0F00#16, .p) := by decide
-- V14
theorem test_not :
    after ((start 0x3000#16 0x92BF#16).setReg 2#3 0x00FF#16) (fun t => (t.reg 1#3, t.cc)) = some (0xFF00#16, .n) := by
  decide

/-! ### Loads -/

-- V20
theorem test_ld_incremented_pc :
    after ((start 0x3000#16 0x2202#16).setWord 0x3003#16 0x8001#16) (fun t => (t.reg 1#3, t.cc)) =
      some (0x8001#16, .n) := by decide
-- V24
theorem test_ld_wraps :
    after ((start 0xFFFF#16 0x2E00#16).setWord 0x0000#16 0x1234#16) (fun t => (t.reg 7#3, t.cc, t.pc)) =
      some (0x1234#16, .p, 0x0000#16) := by decide
-- V28
theorem test_ldi_kbsr_byte :
    after (answers ((start 0x3000#16 0xA000#16).setWord 0x3001#16 0xFE00#16) [.byte 0x32#8] [])
      (fun t => (t.reg 0#3, t.cc, t.word 0xFE02#16, t.log)) =
      some (0x8000#16, .n, 0x0032#16, [.inPoll (.byte 0x32#8)]) := by decide
-- V28b
theorem test_ldi_kbsr_exhausted :
    after (answers ((start 0x3000#16 0xA000#16).setWord 0x3001#16 0xFE00#16) [.exhausted] [])
      (fun t => (t.reg 0#3, t.cc, t.word 0xFFFE#16, t.running, t.log)) =
      some (0x0000#16, .z, 0x0000#16, false, [.diag .moreInputRequired, .inPoll .exhausted]) := by decide
-- V31
theorem test_ldr_scenario_c :
    after (((((start 0x3000#16 0x62BF#16).setReg 2#3 0x3000#16)).setWord 0x2FFF#16 0x00AA#16).setWord 0x3001#16 0x00BB#16)
      (fun t => (t.reg 1#3, t.cc)) = some (0x00AA#16, .p) := by decide
-- V34
theorem test_ldr_base_is_destination :
    after ((start 0x3000#16 0x6480#16).setReg 2#3 0x4000#16) (fun t => (t.reg 2#3, t.cc)) = some (0x0000#16, .z) := by
  decide
-- V39
theorem test_lea_sets_cc :
    after (start 0x7FFF#16 0xE000#16) (fun t => (t.reg 0#3, t.cc, t.pc)) = some (0x8000#16, .n, 0x8000#16) := by decide
-- V35
theorem test_lea_negative : after (start 0x3000#16 0xE1FD#16) (fun t => (t.reg 0#3, t.cc)) = some (0x2FFE#16, .p) := by
  decide

/-! ### Stores and devices -/

-- V41
theorem test_st_own_word : after (start 0x3000#16 0x31FF#16) (fun t => (t.word 0x3000#16, t.ir)) = some (0x0000#16, 0x31FF#16) := by
  decide
-- V40
theorem test_st :
    after (((start 0x3000#16 0x3605#16).setReg 3#3 0xCAFE#16).setCC .n) (fun t => (t.word 0x3006#16, t.cc)) =
      some (0xCAFE#16, .n) := by decide
-- V47
theorem test_sti_ddr_line_feed :
    after (answers (((start 0x3000#16 0xB200#16).setWord 0x3001#16 0xFE06#16).setReg 1#3 0x000A#16) [] [.ok])
      (fun t => (t.sink, t.word 0xFE06#16, t.word 0xFE04#16)) = some ([0x0D#8, 0x0A#8], 0x0000#16, 0x8000#16) := by decide
-- V49
theorem test_sti_ddr_fails :
    after (answers (((start 0x3000#16 0xB200#16).setWord 0x3001#16 0xFE06#16).setReg 1#3 0x1241#16) [] [.fail])
      (fun t => (t.log, t.word 0xFE04#16, t.running)) = some ([.outWrite [0x41#8] .fail], 0x0000#16, true) := by decide
-- V44
theorem test_str_top_of_memory :
    after ((start 0x3000#16 0x71BF#16).setReg 0#3 0xABCD#16) (fun t => t.word 0xFFFF#16) = some 0xABCD#16 := by decide
-- V45
theorem test_str_source_is_base :
    after ((start 0x3000#16 0x76C1#16).setReg 3#3 0x4000#16) (fun t => t.word 0x4001#16) = some 0x4000#16 := by decide
-- V52: a write to KBSR does not poll
theorem test_write_kbsr : ((start 0x3000#16 0x0000#16).memWrite 0xFE00#16 0xFFFF#16).log = [] := by decide
-- V50
theorem test_write_dsr : ((start 0x3000#16 0x0000#16).memWrite 0xFE04#16 0x0000#16).word 0xFE04#16 = 0x8000#16 := by decide
-- V54
theorem test_write_clk :
    (fun s : State => (s.word 0xFFFE#16, s.running)) ((start 0x3000#16 0x0000#16).memWrite 0xFFFE#16 0x7FFF#16) =
      (0x7FFF#16, false) := by decide

/-! ### Control -/

-- V61 and V62
theorem test_br :
    after (start 0x3000#16 0x0403#16) (fun t => t.pc) = some 0x3004#16 ∧
    after ((start 0x3000#16 0x0403#16).setCC .p) (fun t => t.pc) = some 0x3001#16 := by decide
-- V71
theorem test_br_wraps : after (start 0xFFFF#16 0x0E00#16) (fun t => t.pc) = some 0x0000#16 := by decide
-- V75
theorem test_jmp : after ((start 0x3000#16 0xCE3F#16).setReg 0#3 0xFE00#16) (fun t => t.pc) = some 0xFE00#16 := by decide
-- V76
theorem test_jsr :
    after ((start 0x3000#16 0x4810#16).setCC .n) (fun t => (t.reg 7#3, t.pc, t.cc)) =
      some (0x3001#16, 0x3011#16, .n) := by decide
-- V79
theorem test_jsr_backward : after (start 0x3000#16 0x4FFF#16) (fun t => (t.reg 7#3, t.pc)) = some (0x3001#16, 0x3000#16) := by
  decide
-- V79b
theorem test_jsrr_link_register :
    after ((start 0x3000#16 0x41C0#16).setReg 7#3 0x5000#16) (fun t => (t.reg 7#3, t.pc)) = some (0x3001#16, 0x5000#16) := by
  decide

/-! ### System -/

-- V110
theorem test_trap :
    after (((start 0x3003#16 0xF025#16).setWord 0x0025#16 0x0200#16).setCC .p) (fun t => (t.reg 7#3, t.pc, t.cc)) =
      some (0x3004#16, 0x0200#16, .p) := by decide
-- V113
theorem test_trap_zero : after (start 0x0000#16 0xF000#16) (fun t => (t.reg 7#3, t.pc)) = some (0x0001#16, 0xF000#16) := by
  decide
-- V115
theorem test_rti :
    after ((start 0x3000#16 0x8FFF#16).setCC .p) (fun t => decide (t = (((start 0x3000#16 0x8FFF#16).setCC .p).setPc 0x3001#16).setIr 0x8FFF#16)) =
      some true := by decide
-- V116
theorem test_reserved :
    after ((start 0x3000#16 0xDABC#16).setCC .p) (fun t => decide (t = (((start 0x3000#16 0xDABC#16).setCC .p).setPc 0x3001#16).setIr 0xDABC#16)) =
      some true := by decide

/-! ### Trace, predictor, run loop, launch -/

-- V100, V101, V103, V105
theorem test_wants :
    let c : Config := { cfg with traceMask := 0x0002#16, traceUserOnly := true, traceEnabled := true }
    wants c 1#4 0x3010#16 = true ∧ wants c 1#4 0x2FF0#16 = false ∧ wants c 2#4 0x3010#16 = false ∧
    wants c 1#4 0x3000#16 = true ∧ wants c 1#4 0x2FFF#16 = false ∧
    wants { c with traceUserOnly := false } 1#4 0x0000#16 = true := by decide
-- the ADD fetched at 0x2FFF is traced under user-only, with the PC after it (95_test_vectors.md, tracer filter)
theorem test_trace_pc :
    after { start 0x2FFF#16 0x1021#16 with cfg := { cfg with traceMask := 0x0002#16, traceUserOnly := true, traceEnabled := true } }
      (fun t => t.log.map (fun c => match c with | .traceEmit r => r.pc | _ => 0#16)) = some [0x3000#16] := by decide
-- 95_test_vectors.md, branch predictor
theorem test_predictor :
    [true, true, true, false, false, false, false].foldl
      (fun (acc : Pred × List Bool) b => (predUpdate acc.1 b, acc.2 ++ [predictsTaken (predUpdate acc.1 b)])) (.notTaken, []) =
      (.stronglyNotTaken, [true, true, true, true, false, false, false]) := by decide
-- V121
theorem test_halted : step (start 0x3000#16 0x1025#16).hostHalt = .next (start 0x3000#16 0x1025#16).hostHalt := by rfl
-- R175: a file of four words, origin 0x3000
theorem test_loadFile :
    (match (State.resetWith cfg).loadFile [0x30#8, 0x00#8, 0x12#8, 0x34#8] with
      | .next t => (t.word 0x3000#16, t.pc)
      | .fault _ => (0#16, 0#16)
      | .refused _ => (0#16, 0#16)) = (0x1234#16, 0x0000#16) := by decide
theorem test_load_over_device :
    (match (State.resetWith cfg).load (0xFE05#16, [0#16, 0#16]) with
      | .next _ => false
      | .fault _ => false
      | .refused r => decide (r = .imageCoversDevice)) = true := by decide

/-! ### Every row of the opcode table decodes to its constructor and runs first after reset -/

/-- The `match` column of spec/opcode_table.json, with the constructor it decodes to. -/
def tableRows : List (Nat × Instr) :=
  [(0x0000, .br false false false 0#16), (0x1000, .addReg 0#3 0#3 0#3), (0x1020, .addImm 0#3 0#3 0#16), (0x2000, .ld 0#3 0#16),
   (0x3000, .st 0#3 0#16), (0x4800, .jsr 0#16), (0x4000, .jsrr 0#3), (0x5000, .andReg 0#3 0#3 0#3), (0x5020, .andImm 0#3 0#3 0#16),
   (0x6000, .ldr 0#3 0#3 0#16), (0x7000, .str 0#3 0#3 0#16), (0x8000, .rti), (0x9000, .not 0#3 0#3), (0xA000, .ldi 0#3 0#16),
   (0xB000, .sti 0#3 0#16), (0xC000, .jmp 0#3), (0xD000, .reserved 0#12), (0xE000, .lea 0#3 0#16), (0xF000, .trap 0#8)]

theorem test_table_decodes : tableRows.all (fun r => decodeTableWord 16 r.1 == some r.2) = true := by decide

theorem test_table_runs_after_reset :
    tableRows.all (fun r => match step (State.reset.withFetchWord 16 r.1) with
      | .next _ => true
      | .fault _ => false
      | .refused _ => false) = true := by decide

/-! ### Witnesses: for each statement with hypotheses, states and operands that meet them together -/

theorem inv_start : Inv (start 0x3000#16 0x1025#16) :=
  ⟨by decide, by decide, by decide, by decide, by decide⟩

theorem witness_DecodeOfEncode : (Instr.ldr 1#3 2#3 0xFFE0#16).wellFormed = true ∧ (Instr.jsr 0x03FF#16).wellFormed = true := by
  decide

theorem witness_EncodeOfDecode :
    ∃ w : Word, ∃ i : Instr, i.wellFormed = true ∧ encode i = w := ⟨0x62BF#16, .ldr 1#3 2#3 0xFFFF#16, by decide⟩

theorem witness_DecodeIgnoresUnusedBits :
    0x1059#16 &&& usedBits 0x1041#16 = 0x1041#16 &&& usedBits 0x1041#16 ∧ 0x1059#16 ≠ 0x1041#16 := by decide

/-- The boundary values of the two cases of R64, for the width 9. -/
theorem witness_SignExtension : 9 ∈ [5, 6, 9, 11] ∧ (0x0FF#9).toNat < 2 ^ 8 ∧ ¬ (0x100#9).toNat < 2 ^ 8 := by decide

theorem witness_InvAtReset : cfg.Distinct := by decide

theorem witness_InvKeptByStep : ∃ s t : State, Inv s ∧ step s = .next t := ⟨_, _, inv_start, rfl⟩

theorem witness_InvKeptByHost :
    ∃ (s t : State) (image : Image), Inv s ∧ s.load image = .next t ∧ image.2.length = 2 :=
  ⟨start 0x3000#16 0x1025#16, _, (0x4000#16, [1#16, 2#16]), inv_start, rfl, rfl⟩

/-- What `after` answers is what it reads of the next state. -/
theorem next_of_after {α : Type} {s : State} {look : State → α} {x : α} (h : after s look = some x) :
    ∃ t, step s = .next t ∧ look t = x := by
  unfold after at h
  split at h
  · exact ⟨_, ‹_›, Option.some.inj h⟩
  · cases h
  · cases h

/-- The machine after the launch of one image, a single word at 0x3000. -/
def launched : State := ((State.resetWith cfg).storeImage 0x3000#16 [0x1025#16]).start

theorem launch_launched : launch cfg [(0x3000#16, [0x1025#16])] = .next launched := by
  have h : ((imageAddrs 0x3000#16 [0x1025#16]).any cfg.isDevice) = false := by decide
  simp only [launch, State.loadAll, State.load]
  rw [show (State.resetWith cfg).cfg = cfg from rfl, h]
  rfl

/-- A launch, a cycle, the host's halt request. -/
theorem witness_InvOfReachable : ∃ (c : Config) (images : List Image) (s : State),
    c.Distinct ∧ Reachable c images s ∧ s.pc = 0x3001#16 := by
  obtain ⟨t, h, hp⟩ := next_of_after (s := launched) (look := fun t => t.pc) (x := 0x3001#16) (by decide)
  exact ⟨cfg, _, t.hostHalt, by decide,
    .moved _ _ (.moved _ _ (.launched _ launch_launched) (.cycle _ _ (by decide) h)) (.hostHalt _), hp⟩

theorem witness_StepRunsDecodedInstruction : ∃ (s t : State) (i : Instr), s.running = true ∧ i.wellFormed = true ∧
    s.pc ≠ s.cfg.kbsrAddr ∧ s.pc ≠ s.cfg.kbdrAddr ∧ s.pc ≠ s.cfg.ddrAddr ∧ s.word s.pc = encode i ∧
    exec i { s with ir := encode i, pc := BitVec.ofNat 16 ((s.pc.toNat + 1) % 65536) } = .next t :=
  ⟨start 0x3000#16 0x1025#16, _, .addImm 0#3 0#3 5#16, by decide, by decide, by decide, by decide, by decide, by decide, rfl⟩

/-- The same statement with a fetch from a device register. -/
theorem witness_StepRunsDecodedInstruction_device : ∃ s t : State, s.running = true ∧ s.pc = s.cfg.ddrAddr ∧
    step s = .next t := by
  obtain ⟨t, h, -⟩ := next_of_after (s := (start 0x3000#16 0x1025#16).setPc 0xFE06#16) (look := fun t => t.pc)
    (x := 0xFE07#16) (by decide)
  exact ⟨_, t, by decide, by decide, h⟩

/-- The host's placing of a word: the next step fetches it. -/
theorem test_withFetchWord :
    after ((State.resetWith cfg).withFetchWord 16 0x1025) (fun t => (t.ir, t.reg 0#3, t.pc)) =
      some (0x1025#16, 0x0005#16, 0x0001#16) := by decide

theorem witness_HaltIsFinal : (start 0x3000#16 0x1025#16).hostHalt.running = false := by decide

theorem witness_AddRule : bits 12 4 0x1025#16 = 0x1#4 ∧ bits 12 4 0x14C4#16 = 0x1#4 := by decide

theorem witness_AndRule : bits 12 4 0x5070#16 = 0x5#4 ∧ bits 12 4 0x54C4#16 = 0x5#4 := by decide

theorem witness_LdrRule : bits 12 4 0x62BF#16 = 0x6#4 := by decide

/-- Loads: the plain clause beside the device addresses, in LoadsFrom and in LdiResult. -/
theorem witness_LoadsFrom_plain : [0x0000#16, 0xFDFF#16, 0xFE01#16, 0xFE07#16, 0xFFFF#16].all (fun a =>
    cfg.isDevice a = false ∧ a ≠ cfg.kbsrAddr ∧ a ≠ cfg.kbdrAddr ∧ a ≠ cfg.ddrAddr) = true := by decide

theorem witness_LdiResult_plain : ∃ (s : State) (off : Word),
    s.cfg.isDevice (s.pc + off) = false ∧ s.cfg.isDevice (s.word (s.pc + off)) = false :=
  ⟨(start 0x3000#16 0xA000#16).setWord 0x3001#16 0xFFFF#16, 1#16, by decide⟩

/-- Stores: an address of each class of StoresTo, at its boundary. -/
theorem witness_StoresTo_classes :
    [0xFDFF#16, 0xFE01#16, 0xFE05#16, 0xFE07#16, 0xFFFE#16, 0xFFFF#16].all (fun a =>
      a ≠ cfg.ddrAddr ∧ a ≠ cfg.kbsrAddr ∧ a ≠ cfg.kbdrAddr ∧ a ≠ cfg.dsrAddr) = true ∧
    [0xFE00#16, 0xFE02#16, 0xFE04#16].all (fun a =>
      a ≠ cfg.ddrAddr ∧ (a = cfg.kbsrAddr ∨ a = cfg.kbdrAddr ∨ a = cfg.dsrAddr)) = true ∧
    (0xFE06#16 = cfg.ddrAddr ∧ cfg.dsrAddr ≠ cfg.ddrAddr) := by decide

theorem witness_StiResult_plain : (start 0x3000#16 0xB200#16).cfg.isDevice ((start 0x3000#16 0xB200#16).pc + 1#16) = false := by
  decide

/-- Taken and not taken, for each condition code. -/
theorem witness_BrResult : ∀ c ∈ [CC.n, CC.z, CC.p],
    ((true = true ∧ c = .n) ∨ (true = true ∧ c = .z) ∨ (true = true ∧ c = .p)) ∧
    ¬((false = true ∧ c = .n) ∨ (false = true ∧ c = .z) ∨ (false = true ∧ c = .p)) := by decide

theorem witness_TrapEntry_plain :
    [0x00#8, 0x25#8, 0xFF#8].all (fun v => cfg.isDevice (BitVec.ofNat 16 v.toNat) = false) = true := by decide

theorem witness_RtiRule : ∃ (s : State) (w : Word), bits 12 4 w = 0x8#4 ∧ s.running = true ∧
    s.cfg.isDevice s.pc = false ∧ s.word s.pc = w := ⟨start 0x3000#16 0x8FFF#16, 0x8FFF#16, by decide⟩

theorem witness_ReservedRule : ∃ (s : State) (w : Word), bits 12 4 w = 0xD#4 ∧ s.running = true ∧
    s.cfg.isDevice s.pc = false ∧ s.word s.pc = w := ⟨start 0x3000#16 0xDABC#16, 0xDABC#16, by decide⟩

theorem witness_PlainStorage :
    [0xFDFF#16, 0xFE01#16, 0xFFFD#16, 0xFFFF#16].all (fun a => cfg.isDevice a = false) = true := by decide

/-- Each answer of the poll. -/
theorem witness_KbsrReadPolls : ∀ a ∈ [InAnswer.byte 0xFF#8, .empty, .exhausted, .cancelled],
    (answers (start 0x3000#16 0x0000#16) [a] []).input.next = a := by decide

theorem witness_KbdrReadReturnsLatch :
    cfg.Distinct ∧ cfg.kbdrReadClears = false ∧ ({ cfg with kbdrReadClears := true } : Config).Distinct := by decide

theorem witness_UnreadByteIsOverwritten : ∃ s : State, s.cfg.Distinct ∧ s.input.exhausted = false ∧
    s.input.answers = [.byte 0x32#8, .byte 0x33#8, .exhausted] :=
  ⟨answers (start 0x3000#16 0x0000#16) [.byte 0x32#8, .byte 0x33#8, .exhausted] [], by decide, by decide, rfl⟩

/-- KbdrDsrWritesIgnored, DisplayReads, ClkIsPlainStorage: the distinct addresses; a CLK word with the run bit clear. -/
theorem witness_Distinct : (start 0x3000#16 0x0000#16).cfg.Distinct ∧ (0x7FFF#16).getLsbD 15 = false := by decide

/-- A line feed and another byte, a write that succeeds and one that fails. -/
theorem witness_DdrWriteForwards :
    (start 0x3000#16 0x0000#16).cfg.Distinct ∧
    [0x0D#8, 0x0A#8] = (if cfg.sinkIsTerminal = true ∧ (0xFF0A#16).toNat % 256 = 0x0A then [0x0D#8, 0x0A#8]
      else [BitVec.ofNat 8 ((0xFF0A#16).toNat % 256)]) ∧
    [0x0B#8] = (if cfg.sinkIsTerminal = true ∧ (0x000B#16).toNat % 256 = 0x0A then [0x0D#8, 0x0A#8]
      else [BitVec.ofNat 8 ((0x000B#16).toNat % 256)]) ∧
    (answers (start 0x3000#16 0x0000#16) [] [.ok]).output.next = .ok ∧
    (answers (start 0x3000#16 0x0000#16) [] [.fail]).output.next = .fail := by decide

theorem witness_InputContract :
    (InPort.mk [.exhausted] false 0).next = .exhausted ∧ (InPort.mk [.byte 0x32#8, .exhausted] false 0).exhausted = false ∧
    (InPort.mk [.byte 0x32#8, .exhausted] false 0).answers = [0x32#8].map .byte ++ [.exhausted] := by decide

/-- PcAfterCycle, RegisterWriters, ConditionCodeWriters, CycleKeepsRecord: a running state and its step; the top of
memory, where the PC wraps. -/
theorem witness_cycle : ∃ (s t : State) (a1 : Word), s.running = true ∧ step s = .next t ∧
    a1 = BitVec.ofNat 16 ((s.pc.toNat + 1) % 65536) ∧ a1 = 0x0000#16 :=
  ⟨start 0xFFFF#16 0x1025#16, _, 0x0000#16, by decide, rfl, by decide, rfl⟩

/-- A setter and a keeper of the condition code; the three link instructions. -/
theorem witness_ConditionCodeWriters :
    setsCC (decode (start 0x3000#16 0x1025#16).fetch.ir) = true ∧ setsCC (decode (start 0x3000#16 0x3605#16).fetch.ir) = false ∧
    decode (start 0x3000#16 0x4810#16).fetch.ir = .jsr 0x0010#16 ∧ decode (start 0x3000#16 0x40C0#16).fetch.ir = .jsrr 3#3 ∧
    decode (start 0x3000#16 0xF025#16).fetch.ir = .trap 0x25#8 := by decide

theorem witness_NoDataAccessInstructions : ∃ s t : State, noDataAccess .rti = true ∧ exec .rti s = .next t :=
  ⟨start 0x3000#16 0x8000#16, _, rfl, rfl⟩

/-- A plain address that the cycle stores to, and one it does not. -/
theorem witness_PlainWordsChangeOnlyByStores : ∃ s t : State, s.running = true ∧ step s = .next t ∧
    s.cfg.isDevice 0x3006#16 = false ∧
    storeOf s.fetch (decode s.fetch.ir) = some (0x3006#16, 0x0000#16) ∧
    s.cfg.isDevice 0x3007#16 = false ∧ ∀ v, storeOf s.fetch (decode s.fetch.ir) ≠ some (0x3007#16, v) := by
  refine ⟨start 0x3000#16 0x3605#16, _, by decide, rfl, by decide, by decide, by decide, fun v h => ?_⟩
  have : storeOf (start 0x3000#16 0x3605#16).fetch (decode (start 0x3000#16 0x3605#16).fetch.ir) =
      some (0x3006#16, 0x0000#16) := by decide
  rw [this] at h
  simp at h

/-- A halt by a store to CLK (V53). -/
theorem witness_WaysToHalt_store : ∃ s t : State, s.cfg.Distinct ∧ s.running = true ∧ step s = .next t ∧
    t.log = [] ++ s.log ∧ t.running = false :=
  ⟨(start 0x3000#16 0xB200#16).setWord 0x3001#16 0xFFFE#16, _, by decide, by decide, rfl, rfl, by decide⟩

/-- A halt by an exhausted input (V28b), and a cycle that does not halt. -/
theorem witness_WaysToHalt_poll : ∃ s t : State, s.cfg.Distinct ∧ s.running = true ∧ step s = .next t ∧
    t.log = [.diag .moreInputRequired, .inPoll .exhausted] ++ s.log ∧ t.running = false :=
  ⟨answers ((start 0x3000#16 0xA000#16).setWord 0x3001#16 0xFE00#16) [.exhausted] [], _, by decide, by decide, rfl,
    by decide, by decide⟩

theorem witness_WaysToHalt_runs : ∃ s t : State, s.cfg.Distinct ∧ s.running = true ∧ step s = .next t ∧
    t.log = [] ++ s.log ∧ t.running = true :=
  ⟨start 0x3000#16 0x1025#16, _, by decide, by decide, rfl, rfl, by decide⟩

/-- The state a step leads to. -/
def next (s : State) : State :=
  match step s with
  | .next t => t
  | .fault _ => s
  | .refused _ => s

theorem step_next {s : State} (h : (after s (fun _ => ())).isSome = true) : step s = .next (next s) := by
  unfold after at h
  unfold next
  split at h <;> simp_all

/-- ST R0,#0 with R0 = 0x1263 overwrites the word fetched in the very next cycle (program P6). -/
theorem witness_StoreSeenByNextFetch : ∃ s t w : State, s.running = true ∧ step s = .next t ∧
    s.cfg.isDevice t.pc = false ∧ storeOf s.fetch (decode s.fetch.ir) = some (t.pc, 0x1263#16) ∧
    RunsWithoutStoreTo t.pc t t ∧ t.running = true ∧ step t = .next w :=
  let s := (start 0x3001#16 0x3000#16).setReg 0#3 0x1263#16
  ⟨s, next s, next (next s), by decide, step_next (by decide), by decide, by decide, .refl _, by decide,
    step_next (by decide)⟩

/-- ST R0,#1, then a step that stores nothing, then the fetch of the stored word. -/
theorem witness_StoreSeenByNextFetch_later : ∃ s t u w : State, s.running = true ∧ step s = .next t ∧
    s.cfg.isDevice 0x3002#16 = false ∧ storeOf s.fetch (decode s.fetch.ir) = some (0x3002#16, 0x1263#16) ∧
    RunsWithoutStoreTo 0x3002#16 t u ∧ u.running = true ∧ u.pc = 0x3002#16 ∧ step u = .next w :=
  let s := (start 0x3000#16 0x3001#16).setReg 0#3 0x1263#16
  ⟨s, next s, next (next s), next (next (next s)), by decide, step_next (by decide), by decide, by decide,
    .step _ _ _ (by decide) (step_next (by decide))
      (fun v h => by
        have : storeOf (next s).fetch (decode (next s).fetch.ir) = none := by decide
        rw [this] at h; cases h) (.refl _),
    by decide, by decide, step_next (by decide)⟩

/-- The same at CLK, whose word keeps the machine running. -/
theorem witness_StoreSeenByNextFetch_clk : ∃ s t w : State, s.cfg.Distinct ∧ s.running = true ∧ step s = .next t ∧
    storeOf s.fetch (decode s.fetch.ir) = some (s.cfg.clkAddr, 0x927F#16) ∧
    RunsWithoutStoreTo s.cfg.clkAddr t t ∧ t.running = true ∧ t.pc = s.cfg.clkAddr ∧ step t = .next w :=
  let s := (start 0xFFFD#16 0x3000#16).setReg 0#3 0x927F#16
  ⟨s, next s, next (next s), by decide, by decide, step_next (by decide), by decide, .refl _, by decide, by decide,
    step_next (by decide)⟩

theorem witness_UnloadedMemoryIsNoOp : ∃ s : State, s.running = true ∧ s.cfg.isDevice s.pc = false ∧
    s.word s.pc = 0x0000#16 := ⟨start 0x3000#16 0x0000#16, by decide⟩

theorem witness_TraceFilter : ∃ c : Config, c.traceEnabled = true ∧ c.traceMask = 0x0002#16 ∧ c.traceUserOnly = true :=
  ⟨{ cfg with traceMask := 0x0002#16, traceUserOnly := true, traceEnabled := true }, by decide⟩

/-- TraceNeverAffectsExecution, PredictorAffectsNothing, and the last clause of TraceFilter: a step. -/
theorem witness_step : ∃ s t : State, step s = .next t := ⟨start 0x3000#16 0x1025#16, _, rfl⟩

theorem witness_PredictorCounter : ∃ s t : State,
    (∀ n z p off, Instr.jmp 0#3 ≠ .br n z p off) ∧ exec (.jmp 0#3) s = .next t :=
  ⟨start 0x3000#16 0xC000#16, _, (fun _ _ _ _ h => by cases h), rfl⟩

/-- An image that wraps past the top of memory; none of its addresses is a device register. -/
theorem witness_LoadPlacesImage : [0x1111#16, 0x2222#16].length ≤ 65536 ∧
    ∀ j < [0x1111#16, 0x2222#16].length, cfg.isDevice (0xFFFF#16 + BitVec.ofNat 16 j) = false := by decide

theorem witness_LoadOverDeviceRefused : 1 < [0x0000#16, 0x0000#16].length ∧
    cfg.isDevice (0xFE05#16 + BitVec.ofNat 16 1) = true := by decide

/-- R175: the empty file and a file of one byte. -/
theorem witness_ObjectFile : ([] : List Byte).length < 2 ∧ [0x30#8].length < 2 := by decide

theorem witness_LaunchedState : ∃ (images : List Image) (s : State), launch cfg images = .next s ∧
    ∀ image ∈ images, 0x3001#16 ∉ imageAddrs image.1 image.2 :=
  ⟨[(0x3000#16, [0x1025#16])], _, rfl, by decide⟩

theorem witness_LaterLoadWins : ∃ s t : State, [0x2222#16].length ≤ 65536 ∧
    s.loadAll ([(0x3000#16, [0x1111#16])] ++ [(0x3000#16, [0x2222#16])]) = .next t :=
  ⟨State.resetWith cfg, _, by decide, rfl⟩

end Sys2Proof.Tests
end

section
/-! PROOFS. The condition code of a word (spec/10_state.md rule R16): one equation per branch of `ccOf`, and the
obligation from them. -/

namespace Sys2Proof.Machine

theorem ccOf_zero : ccOf 0x0000#16 = .z := if_pos rfl

theorem ccOf_of_sign_set {v : Word} (hv : v ≠ 0x0000#16) (hs : v.getLsbD 15 = true) : ccOf v = .n := by
  rw [ccOf, if_neg hv, if_pos hs]

theorem ccOf_of_sign_clear {v : Word} (hv : v ≠ 0x0000#16) (hs : v.getLsbD 15 = false) : ccOf v = .p := by
  rw [ccOf, if_neg hv, hs, if_neg Bool.false_ne_true]

/-- Settles O7: the three conditions are exclusive and exhaustive, and each fixes the code. -/
theorem conditionCodeOf : Obligations.ConditionCodeOf := by
  intro v
  by_cases hv : v = 0x0000#16
  · subst hv
    simp [ccOf_zero]
  · cases hs : v.getLsbD 15 with
    | true => simp [ccOf_of_sign_set hv hs, hv]
    | false => simp [ccOf_of_sign_clear hv hs, hv]

end Sys2Proof.Machine
end

section
/-! PROOFS. The memory interface (spec/20_memory.md): reads and writes of plain storage (R44), and the writes that KBDR
and DSR ignore (R38, R40). -/

namespace Sys2Proof.Machine

/-- A MemRead of a plain address answers the stored word, with no effect (R44). -/
theorem State.memRead_plain (s : State) {a : Word} (h : s.cfg.isDevice a = false) : s.memRead a = (s.word a, s) := by
  obtain ⟨hkbsr, hkbdr, -, hddr, -⟩ := isDevice_false h
  exact s.memRead_stored a hkbsr hkbdr hddr

/-- A MemWrite to KBSR, KBDR or DSR is no effect at all (R34), as long as the address is not DDR's too. -/
theorem State.memWrite_ignored (s : State) {a : Word} (v : Word) (hddr : a ≠ s.cfg.ddrAddr)
    (h : a = s.cfg.kbsrAddr ∨ a = s.cfg.kbdrAddr ∨ a = s.cfg.dsrAddr) : s.memWrite a v = s := by
  rw [State.memWrite, if_neg hddr, if_pos h]

/-- Settles O33: the write is the stored case of `memWrite_stores`; since it keeps the parameters, the address is still
plain when it is read back. -/
theorem plainStorage : Obligations.PlainStorage := by
  intro s a v h
  obtain ⟨hkbsr, hkbdr, hdsr, hddr, -⟩ := isDevice_false h
  have write := s.memWrite_stores a v
  obtain ⟨written, others, ports⟩ := write.stored hddr hkbsr hkbdr hdsr
  refine ⟨s.memRead_plain h, write.cpu, ports, fun b => ?_, ?_⟩
  · split
    · next hb => rw [hb, written]
    · next hb => exact others b hb
  · have still : (s.memWrite a v).cfg.isDevice a = false := by rw [write.cpu.cfg, h]
    rw [State.memRead_plain _ still, written]

/-- Settles O37: neither address is DDR's, so both writes fall in the ignored case. -/
theorem kbdrDsrWritesIgnored : Obligations.KbdrDsrWritesIgnored := by
  intro s v h
  obtain ⟨-, -, -, -, -, kbdr_ne_ddr, -, dsr_ne_ddr, -, -⟩ := distinct_ne h
  exact ⟨s.memWrite_ignored v kbdr_ne_ddr (.inr (.inl rfl)), s.memWrite_ignored v dsr_ne_ddr (.inr (.inr rfl))⟩

end Sys2Proof.Machine
end

section
/-! PROOFS. Sign extension (spec/30_encoding.md rule R64), for every width that fits in a word: the number the extended
field stands for, as a signed and as an unsigned word, and the shift form. -/

namespace Sys2Proof

/-- Extension keeps the two's-complement value of the field. -/
theorem toInt_sext {w : Nat} (hw : w ≤ 16) (f : BitVec w) : (sext f).toInt = f.toInt :=
  BitVec.toInt_signExtend_of_le hw

/-- That value in numbers: fields from half the range up stand for the negative values. -/
theorem toInt_sext_eq_ite {w : Nat} (hw : w ≤ 16) (f : BitVec w) :
    (sext f).toInt = if f.toNat < 2 ^ (w - 1) then (f.toNat : Int) else (f.toNat : Int) - 2 ^ w := by
  rw [toInt_sext hw, BitVec.toInt_eq_msb_cond, BitVec.msb_eq_decide]
  by_cases low : f.toNat < 2 ^ (w - 1)
  · simp [low, Nat.not_le.mpr low]
  · simp [low, Nat.not_lt.mp low]

/-- The sign bit adds ones above the field. -/
theorem toNat_sext {w : Nat} (hw : w ≤ 16) (f : BitVec w) :
    (sext f).toNat = if f.getLsbD (w - 1) then f.toNat + (65536 - 2 ^ w) else f.toNat := by
  rw [sext, BitVec.toNat_signExtend, BitVec.toNat_setWidth_of_le hw, BitVec.msb_eq_getLsbD_last]
  split <;> simp

/-- The field moved to the top of the word and shifted back arithmetically: bit `i` is bit `i` of the field, and its sign
bit from there up. -/
theorem sext_eq_sshiftRight {w : Nat} (hpos : 0 < w) (hw : w ≤ 16) (f : BitVec w) :
    sext f = (f.setWidth 16 <<< (16 - w)).sshiftRight (16 - w) := by
  have sign : (f.setWidth 16 <<< (16 - w)).msb = f.msb := by
    have low : 15 - (16 - w) = w - 1 := by omega
    have above : ¬ 15 < 16 - w := by omega
    simp [BitVec.msb_eq_getLsbD_last, low, above]
  ext i hi
  rw [sext, BitVec.getElem_signExtend, BitVec.getElem_sshiftRight, sign]
  by_cases hf : i < w
  · have inside : 16 - w + i < 16 := by omega
    simp [hf, inside, BitVec.getLsbD_eq_getElem]
  · have outside : ¬ 16 - w + i < 16 := by omega
    simp [hf, outside]

namespace Machine

/-- Settles O6: the four widths are positive and fit in a word, so the general laws of `sext` give every clause about
them; the examples compute, and the address forms are their definitions. -/
theorem signExtension : Obligations.SignExtension := by
  refine ⟨fun w hmem f => ?_, by decide, by decide, by decide, fun _ _ => rfl, fun _ _ _ => rfl⟩
  have hpos : 0 < w := by simp at hmem; omega
  have hw : w ≤ 16 := by simp at hmem; omega
  refine ⟨toInt_sext_eq_ite hw f, toNat_sext hw f, sext_eq_sshiftRight hpos hw f, ?_⟩
  rw [toInt_sext hw]
  exact ⟨f.le_toInt, BitVec.toInt_le⟩

end Machine
end Sys2Proof
end

section
/-! PROOFS. Decoding an encoded instruction (spec/30_encoding.md rules R67, R80): bits 15 to 12 select the arm of
`decode`, and each operand is read back from the bits where it was put. -/

namespace Sys2Proof

/-- A field read from above another one reads 0. -/
theorem bits_put_of_le {len' : Nat} (lo len lo' : Nat) (f : BitVec len') (h : lo' + len' ≤ lo) :
    bits lo len (put lo' f) = 0#len := by
  ext i hi
  simp only [getElem_bits, getLsbD_put, BitVec.getElem_zero]
  rw [BitVec.getLsbD_of_ge f _ (by omega), Bool.and_false]

/-- A field read from below another one reads 0. -/
theorem bits_put_of_ge {len' : Nat} (lo len lo' : Nat) (f : BitVec len') (h : lo + len ≤ lo') :
    bits lo len (put lo' f) = 0#len := by
  ext i hi
  have below : ¬ lo' ≤ lo + i := by omega
  simp [getLsbD_put, below]

/-- Bits 15 to 12 of the encoding of any instruction are its opcode. -/
theorem bits_encode_opcode : ∀ i : Instr, bits 12 4 (encode i) = opcodeOf i
  | .br n z p off => Laws.EncodeOpcode.br n z p off
  | .addReg dr sr1 sr2 => Laws.EncodeOpcode.addReg dr sr1 sr2
  | .addImm dr sr1 imm => Laws.EncodeOpcode.addImm dr sr1 imm
  | .ld dr off => Laws.EncodeOpcode.ld dr off
  | .st sr off => Laws.EncodeOpcode.st sr off
  | .jsr off => Laws.EncodeOpcode.jsr off
  | .jsrr base => Laws.EncodeOpcode.jsrr base
  | .andReg dr sr1 sr2 => Laws.EncodeOpcode.andReg dr sr1 sr2
  | .andImm dr sr1 imm => Laws.EncodeOpcode.andImm dr sr1 imm
  | .ldr dr base off => Laws.EncodeOpcode.ldr dr base off
  | .str sr base off => Laws.EncodeOpcode.str sr base off
  | .rti => Laws.EncodeOpcode.rti
  | .not dr sr => Laws.EncodeOpcode.not dr sr
  | .ldi dr off => Laws.EncodeOpcode.ldi dr off
  | .sti sr off => Laws.EncodeOpcode.sti sr off
  | .jmp base => Laws.EncodeOpcode.jmp base
  | .reserved low12 => Laws.EncodeOpcode.reserved low12
  | .lea dr off => Laws.EncodeOpcode.lea dr off
  | .trap vect => Laws.EncodeOpcode.trap vect

/-- The same, bit by bit. -/
theorem getElem_encode_opcode (i : Instr) {k : Nat} (hk : k < 4) : (encode i)[12 + k] = (opcodeOf i)[k] := by
  simp only [← bits_encode_opcode, getElem_bits, BitVec.getLsbD_eq_getElem (show 12 + k < 16 by omega)]

/-- Below the opcode a field of the encoding is one of the operand bits. -/
theorem bits_encode_operand (i : Instr) {lo len : Nat} (h : lo + len ≤ 12) :
    bits lo len (encode i) = bits lo len (operandBits i) := by
  rw [encode, bits_or, bits_put_of_ge lo len 12 _ h, BitVec.zero_or]

/-- The same for one bit. -/
theorem getElem_encode_operand (i : Instr) {k : Nat} (hk : k < 12) : (encode i)[k] = (operandBits i)[k] := by
  have below : ¬ 12 ≤ k := by omega
  simp [encode, below]

/-- A well-formed instruction survives encoding and decoding. The bits of the opcode select the arm of `decode` and bit
5 or 11 its form; then each field of the arm is the operand put there, and a canonical immediate is extended back. -/
theorem decode_encode (i : Instr) (hwf : i.wellFormed = true) : decode (encode i) = i := by
  have bit15 : (encode i)[15] = (opcodeOf i)[3] := getElem_encode_opcode i (k := 3) (by decide)
  have bit14 : (encode i)[14] = (opcodeOf i)[2] := getElem_encode_opcode i (k := 2) (by decide)
  have bit13 : (encode i)[13] = (opcodeOf i)[1] := getElem_encode_opcode i (k := 1) (by decide)
  have bit12 : (encode i)[12] = (opcodeOf i)[0] := getElem_encode_opcode i (k := 0) (by decide)
  cases i <;> unfold Instr.wellFormed at hwf
  all_goals
    simp [decode, bit15, bit14, bit13, bit12, opcodeOf, bits_encode_operand, getElem_encode_operand, operandBits,
      fieldTable, putBit, bits_or, bits_put, bits_put_of_le, bits_put_of_ge, sext_bits_of_fits, hwf]

end Sys2Proof
end

section
/-! PROOFS. The instruction cycle (spec/40_instruction_cycle.md rules R91 to R93): the state after the fetch step, and
the step from the execute step. -/

namespace Sys2Proof.Machine

/-- The incremented PC in numbers: it wraps modulo 65536 (R92). -/
theorem pc_add_one (pc : Word) : pc + 1 = BitVec.ofNat 16 ((pc.toNat + 1) % 65536) := by
  apply BitVec.eq_of_toNat_eq
  simp [BitVec.toNat_add]

/-- The fetch step as one update of what the read leaves: IR is the word read, the PC is incremented (R92). -/
theorem State.fetch_eq (s : State) :
    s.fetch = { (s.memRead s.pc).2 with
      ir := (s.memRead s.pc).1, pc := BitVec.ofNat 16 ((s.pc.toNat + 1) % 65536) } := by
  rw [← pc_add_one]; rfl

/-- The converse of `step_running`: a running machine steps to the traced state of the execute step (R91). -/
theorem step_of_exec {s t : State} (hr : s.running = true) (h : exec (decode s.fetch.ir) s.fetch = .next t) :
    step s = .next t.traceStep := by
  rw [step, if_pos hr, cycle, h, traced]

/-- Settles O14: the state given to `exec` is the one after the fetch step. At a PC whose read has no side effect the
word fetched is the stored one, and an encoded instruction decodes to itself. -/
theorem stepRunsDecodedInstruction : Obligations.StepRunsDecodedInstruction := by
  have clause1 : ∀ s t : State, s.running = true →
      exec (decode (s.memRead s.pc).1) { (s.memRead s.pc).2 with
        ir := (s.memRead s.pc).1, pc := BitVec.ofNat 16 ((s.pc.toNat + 1) % 65536) } = .next t →
      step s = .next t.traceStep := by
    intro s t hr h
    rw [← s.fetch_eq] at h
    exact step_of_exec hr h
  refine ⟨clause1, fun s t i hr hwf hkbsr hkbdr hddr hword h => clause1 s t hr ?_⟩
  rw [s.memRead_stored s.pc hkbsr hkbdr hddr, hword, decode_encode i hwf]
  exact h

end Sys2Proof.Machine
end

section
/-! PROOFS. LDR (spec/42_load_store.md rule R112): the opcode bits as `decode` reads them, the base address in numbers,
and the last act of every load. -/

namespace Sys2Proof

/-- A bit of the opcode of a word, as `decode` reads it (R67). -/
theorem getLsbD_of_opcode {w : Word} {op : BitVec 4} (h : bits 12 4 w = op) {k : Nat} (hk : k < 4) :
    w.getLsbD (12 + k) = op.getLsbD k := by
  rw [← h, getLsbD_bits, decide_eq_true hk, Bool.true_and]

/-- Opcode 0110 is LDR; none of its bits is a mode bit (R62, R67). -/
theorem decode_of_opcode_ldr {w : Word} (h : bits 12 4 w = 0x6#4) :
    decode w = .ldr (bits 9 3 w) (bits 6 3 w) (sext (bits 0 6 w)) := by
  have bit15 : w.getLsbD 15 = false := getLsbD_of_opcode h (k := 3) (by decide)
  have bit14 : w.getLsbD 14 = true := getLsbD_of_opcode h (k := 2) (by decide)
  have bit13 : w.getLsbD 13 = true := getLsbD_of_opcode h (k := 1) (by decide)
  have bit12 : w.getLsbD 12 = false := getLsbD_of_opcode h (k := 0) (by decide)
  rw [decode, bit15, bit14, bit13, bit12]

namespace Machine

/-- Word addition in numbers (R6). -/
theorem word_add_eq_ofNat (a b : Word) : a + b = BitVec.ofNat 16 ((a.toNat + b.toNat) % 65536) := by
  apply BitVec.eq_of_toNat_eq
  simp [BitVec.toNat_add]

/-- The address `EA_base` in numbers (R117). -/
theorem State.eaBase_eq_ofNat (s : State) (base : Reg) (off : Word) :
    s.eaBase base off = BitVec.ofNat 16 (((s.reg base).toNat + off.toNat) % 65536) :=
  word_add_eq_ofNat (s.reg base) off

/-- The last act of LD, LDI and LDR: the read keeps the processor's registers, then `WriteRegCC` writes DR and the
condition code alone. -/
theorem State.loadFrom_loads (s : State) (dr : Reg) (a : Word) : LoadsFrom s (s.loadFrom dr a) dr a := by
  have read : SameCpu s (s.memRead a).2 := (s.memRead_cpu a).1
  have write : WritesReg (s.memRead a).2 (s.loadFrom dr a) dr (s.memRead a).1 := State.writeRegCC_writes _ dr _
  refine
    { dest := write.dest
      others := fun r hr => (write.others r hr).trans (read.reg r)
      cc := by rw [write.dest]; exact write.cc
      pc := write.pc.trans read.pc
      ir := write.quiet.ir.trans read.ir
      pred := write.pred.trans read.pred
      cfg := write.quiet.cfg.trans read.cfg
      mem := write.quiet.mem
      ports := write.quiet.ports
      plain := fun hkbsr hkbdr hddr => ?_ }
  rw [s.memRead_stored a hkbsr hkbdr hddr] at write
  exact ⟨write.dest, write.quiet.mem, write.quiet.ports⟩

/-- What `exec` answers for LDR. -/
theorem exec_ldr (dr base : Reg) (off : Word) (s : State) :
    exec (.ldr dr base off) s = .next (s.loadFrom dr (s.eaBase base off)) := rfl

/-- Settles O21: LDR is `loadFrom` at an address computed from the state before the write, so the base register may be
DR. -/
theorem ldrRule : Obligations.LdrRule := by
  refine ⟨fun w h => decode_of_opcode_ldr h, fun s dr base off => ⟨_, exec_ldr dr base off s, ?_⟩⟩
  rw [← s.eaBase_eq_ofNat base off]
  exact s.loadFrom_loads dr (s.eaBase base off)

end Machine
end Sys2Proof
end

section
/-! PROOFS. RESERVED (spec/44_system.md rule R132): a word is its opcode and its low 12 bits, so a RESERVED word
loses no bit; and the cycle at a plain PC of an instruction that does nothing. -/

namespace Sys2Proof

/-- A word is put together again from its opcode and the 12 bits below it. -/
theorem put_opcode_or_put_low (w : Word) : put 12 (bits 12 4 w) ||| put 0 (bits 0 12 w) = w := by
  ext i hi
  by_cases h : i < 12
  · have low : ¬ 12 ≤ i := by omega
    simp [getLsbD_bits, h, low, BitVec.getLsbD_eq_getElem hi]
  · have high : 12 ≤ i ∧ i - 12 < 4 ∧ 12 + (i - 12) = i := by omega
    simp [high, BitVec.getLsbD_eq_getElem hi]

/-- Opcode 1101 is RESERVED, with the 12 bits below it (R67). -/
theorem decode_of_opcode_reserved {w : Word} (h : bits 12 4 w = 0xD#4) : decode w = .reserved (bits 0 12 w) := by
  have bit15 : w.getLsbD 15 = true := getLsbD_of_opcode h (k := 3) (by decide)
  have bit14 : w.getLsbD 14 = true := getLsbD_of_opcode h (k := 2) (by decide)
  have bit13 : w.getLsbD 13 = false := getLsbD_of_opcode h (k := 1) (by decide)
  have bit12 : w.getLsbD 12 = true := getLsbD_of_opcode h (k := 0) (by decide)
  rw [decode, bit15, bit14, bit13, bit12]

/-- Every word with opcode 1101 is the encoding of its low 12 bits: all of them are canonical (R80). -/
theorem encode_reserved_of_opcode {w : Word} (h : bits 12 4 w = 0xD#4) : encode (.reserved (bits 0 12 w)) = w := by
  rw [encode, opcodeOf, operandBits, ← h, put_opcode_or_put_low]

namespace Machine

/-- The fetch step at a plain PC: its read has no effect, so only IR and the PC change (R44, R92). -/
theorem State.fetch_plain (s : State) (h : s.cfg.isDevice s.pc = false) :
    s.fetch = { s with ir := s.word s.pc, pc := s.pc + 1 } := by
  rw [s.fetch_eq, s.memRead_plain h, ← pc_add_one]

/-- A running machine at a plain PC, where the stored word decodes to an instruction that does nothing: the cycle
changes IR and the PC, then makes the trace step (R91). -/
theorem step_of_exec_same {s : State} {i : Instr} (hr : s.running = true) (h : s.cfg.isDevice s.pc = false)
    (hi : decode (s.word s.pc) = i) (same : ∀ t : State, exec i t = .next t) :
    step s = .next ({ s with ir := s.word s.pc, pc := s.pc + 1 } : State).traceStep := by
  have he : exec (decode s.fetch.ir) s.fetch = .next s.fetch := by
    rw [s.fetch_plain h, hi]
    exact same _
  rw [step_of_exec hr he, s.fetch_plain h]

/-- What `exec` answers for RESERVED. -/
theorem exec_reserved (low12 : BitVec 12) (s : State) : exec (.reserved low12) s = .next s := rfl

/-- Settles O32: the word fetched at a plain PC is the stored one, and RESERVED does nothing. -/
theorem reservedRule : Obligations.ReservedRule := by
  refine ⟨fun w h => ?_, fun s low12 => exec_reserved low12 s, fun s w h hr plain hw => ?_⟩
  · rw [decode_of_opcode_reserved h]
    exact ⟨rfl, encode_reserved_of_opcode h⟩
  · subst hw
    exact step_of_exec_same hr plain (decode_of_opcode_reserved h) (exec_reserved _)

end Machine
end Sys2Proof
end

section
/-! PROOFS. MemWrite (spec/20_memory.md rule R34): one equation per class of address beside `memWrite_ignored`, and the
words it leaves alone. -/

namespace Sys2Proof.Machine

/-- A MemWrite to DDR is a DDR write (R34). -/
theorem State.memWrite_ddr (s : State) {a : Word} (v : Word) (h : a = s.cfg.ddrAddr) :
    s.memWrite a v = s.ddrWrite v := by
  rw [State.memWrite, if_pos h]

/-- A MemWrite to an address that is neither DDR's nor one of the three that ignore it is stored (R34). -/
theorem State.memWrite_stored (s : State) {a : Word} (v : Word) (hddr : a ≠ s.cfg.ddrAddr)
    (h : ¬ (a = s.cfg.kbsrAddr ∨ a = s.cfg.kbdrAddr ∨ a = s.cfg.dsrAddr)) : s.memWrite a v = s.setWord a v := by
  rw [State.memWrite, if_neg hddr, if_neg h]

/-- A MemWrite changes no word but the one addressed and those of DSR and DDR (R34, R41). -/
theorem State.memWrite_word_ne (s : State) (a v b : Word) (hne : b ≠ a) (hdsr : b ≠ s.cfg.dsrAddr)
    (hddr : b ≠ s.cfg.ddrAddr) : (s.memWrite a v).word b = s.word b := by
  by_cases ddr : a = s.cfg.ddrAddr
  · obtain ⟨-, -, -, -, word⟩ := s.ddrWrite_spec v
    rw [s.memWrite_ddr v ddr, word, if_neg hdsr, if_neg hddr]
  · by_cases ignored : a = s.cfg.kbsrAddr ∨ a = s.cfg.kbdrAddr ∨ a = s.cfg.dsrAddr
    · rw [s.memWrite_ignored v ddr ignored]
    · rw [s.memWrite_stored v ddr ignored, s.word_setWord_ne a b v hne]

end Sys2Proof.Machine
end

section
/-! PROOFS. The predictor and the rest of the state (spec/70_reset_and_hazards.md rules R193, R194): setting the
predictor commutes with every shared operation, so an execute step from another predictor value leads to the same
state but for the predictor. -/

namespace Sys2Proof.Machine

/-- What a read returns and does is independent of the predictor. -/
theorem State.memRead_setPred (s : State) (q : Pred) (a : Word) :
    (s.setPred q).memRead a = ((s.memRead a).1, (s.memRead a).2.setPred q) := by
  rcases s.memRead_cases a with ⟨h, e⟩ | ⟨h₁, h, e⟩ | ⟨h₁, h₂, h, e⟩ | ⟨h₁, h₂, h₃, e⟩
  · rw [State.memRead_kbsr (s.setPred q) a h, e]
    simp only [State.kbsrRead, State.inPoll, State.setPred_input]
    cases s.input.next <;> rfl
  · rw [State.memRead_kbdr (s.setPred q) a h₁ h, e]
    cases hc : s.cfg.kbdrReadClears
    · rw [State.kbdrRead_keeps (s.setPred q) hc, s.kbdrRead_keeps hc]; rfl
    · rw [State.kbdrRead_clears (s.setPred q) hc, s.kbdrRead_clears hc]; rfl
  · rw [State.memRead_ddr (s.setPred q) a h₁ h₂ h, e]
  · rw [State.memRead_stored (s.setPred q) a h₁ h₂ h₃, e]; rfl

/-- What a write does is independent of the predictor. -/
theorem State.memWrite_setPred (s : State) (q : Pred) (a v : Word) :
    (s.setPred q).memWrite a v = (s.memWrite a v).setPred q := by
  by_cases ddr : a = s.cfg.ddrAddr
  · rw [s.memWrite_ddr v ddr, (s.setPred q).memWrite_ddr v ddr]
    rfl
  · by_cases ignored : a = s.cfg.kbsrAddr ∨ a = s.cfg.kbdrAddr ∨ a = s.cfg.dsrAddr
    · rw [s.memWrite_ignored v ddr ignored, (s.setPred q).memWrite_ignored v ddr ignored]
    · rw [s.memWrite_stored v ddr ignored, (s.setPred q).memWrite_stored v ddr ignored]
      rfl

/-- The fetch step does not depend on the predictor. -/
theorem State.fetch_setPred (s : State) (q : Pred) : (s.setPred q).fetch = s.fetch.setPred q := by
  simp only [State.fetch, State.setPred_pc, State.memRead_setPred]
  rfl

/-- The last act of a load does not depend on the predictor. -/
theorem State.loadFrom_setPred (s : State) (q : Pred) (dr : Reg) (a : Word) :
    (s.setPred q).loadFrom dr a = (s.loadFrom dr a).setPred q := by
  simp only [State.loadFrom, State.memRead_setPred]
  rfl

/-- The pointer read of LDI and STI does not depend on the predictor. -/
theorem State.eaInd_setPred (s : State) (q : Pred) (off : Word) :
    (s.setPred q).eaInd off = ((s.eaInd off).1, (s.eaInd off).2.setPred q) :=
  s.memRead_setPred q (s.eaPc off)

/-- Trap entry does not depend on the predictor: setting it commutes with the link write and the vector read. -/
theorem State.trapEntry_setPred (s : State) (q : Pred) (vect : BitVec 8) :
    (s.setPred q).trapEntry vect = (s.trapEntry vect).setPred q := by
  have link : (s.setPred q).link = s.link.setPred q := rfl
  simp only [State.trapEntry, link, State.memRead_setPred]
  rfl

/-- An execute step from another predictor value leads to the same state but for the predictor. BR alone writes the
predictor; every other instruction carries the value along. -/
theorem exec_setPred (i : Instr) (s t : State) (q : Pred) (h : exec i s = .next t) :
    ∃ q', exec i (s.setPred q) = .next (t.setPred q') := by
  cases i <;> injection h with h <;> subst h
  case br n z p off =>
    exact ⟨if s.cfg.predictorWired then predUpdate q (branchTaken n z p s.cc) else q, rfl⟩
  case ld dr off => exact ⟨q, congrArg _ (s.loadFrom_setPred q dr (s.eaPc off))⟩
  case ldr dr base off => exact ⟨q, congrArg _ (s.loadFrom_setPred q dr (s.eaBase base off))⟩
  case ldi dr off =>
    refine ⟨q, ?_⟩
    simp only [exec, execLdi, State.eaInd_setPred, State.loadFrom_setPred]
  case st sr off => exact ⟨q, congrArg _ (s.memWrite_setPred q (s.eaPc off) (s.reg sr))⟩
  case str sr base off => exact ⟨q, congrArg _ (s.memWrite_setPred q (s.eaBase base off) (s.reg sr))⟩
  case sti sr off =>
    refine ⟨q, ?_⟩
    simp only [exec, execSti, State.eaInd_setPred, State.memWrite_setPred, State.reg_setPred]
  case trap vect => exact ⟨q, congrArg _ (s.trapEntry_setPred q vect)⟩
  all_goals exact ⟨q, rfl⟩

/-- Settles O54: the run bit, the fetched instruction and the trace record do not depend on the predictor, and neither
does the execute step between them. -/
theorem predictorAffectsNothing : Obligations.PredictorAffectsNothing := by
  intro s t q h
  cases hr : s.running with
  | false =>
    obtain rfl : s = t := by rw [step_halted hr] at h; injection h
    exact ⟨q, step_halted (s := s.setPred q) hr⟩
  | true =>
    obtain ⟨u, executed, rfl⟩ := step_running hr h
    obtain ⟨q', executed'⟩ := exec_setPred _ s.fetch u q executed
    have fetched : exec (decode (s.setPred q).fetch.ir) (s.setPred q).fetch = .next (u.setPred q') := by
      rw [s.fetch_setPred, State.setPred_ir, executed']
    exact ⟨q', step_of_exec (s := s.setPred q) hr fetched⟩

end Sys2Proof.Machine
end

section
/-! PROOFS. A stored word is the next one fetched (spec/70_reset_and_hazards.md rule R181): what a cycle does to one
word of storage, the runs that leave it alone, and the fetch that reads it. -/

namespace Sys2Proof.Machine

/-- The addresses that keep what is stored to them: plain storage (R44), and CLK apart from the other devices (R43). -/
def KeepsStores (c : Config) (a : Word) : Prop := c.isDevice a = false ∨ (c.Distinct ∧ a = c.clkAddr)

/-- Such an address is none of the four devices that answer a read or a write in their own way. -/
theorem KeepsStores.ne_device {c : Config} {a : Word} (h : KeepsStores c a) :
    a ≠ c.kbsrAddr ∧ a ≠ c.kbdrAddr ∧ a ≠ c.dsrAddr ∧ a ≠ c.ddrAddr := by
  rcases h with plain | ⟨distinct, rfl⟩
  · obtain ⟨kbsr, kbdr, dsr, ddr, -⟩ := isDevice_false plain
    exact ⟨kbsr, kbdr, dsr, ddr⟩
  · obtain ⟨-, -, -, kbsr, -, -, kbdr, -, dsr, ddr⟩ := distinct_ne distinct
    exact ⟨kbsr.symm, kbdr.symm, dsr.symm, ddr.symm⟩

/-- A cycle keeps the parameters, and leaves in IR the word it fetched (R14, R92). -/
theorem step_cfg_ir {s t : State} (hr : s.running = true) (h : step s = .next t) :
    t.cfg = s.cfg ∧ t.ir = (s.memRead s.pc).1 := by
  obtain ⟨u, executed, rfl⟩ := step_running hr h
  obtain ⟨-, ir, cfg, -, -⟩ := exec_cpu _ s.fetch u executed
  obtain ⟨fetchIr, -, -, -, -, fetchCfg, -, -⟩ := s.fetch_spec
  exact ⟨cfg.trans fetchCfg, ir.trans fetchIr⟩

/-- What a cycle does to a word that keeps what is stored: after the reads of the cycle it is the word stored there, or
what the reads left (R46). -/
theorem step_word {s t : State} {a : Word} (ha : KeepsStores s.cfg a) (hr : s.running = true)
    (h : step s = .next t) :
    ∃ m, ReadsTo s.fetch m ∧
      (∀ v, storeOf s.fetch (decode s.fetch.ir) = some (a, v) → t.word a = v) ∧
      ((∀ v, storeOf s.fetch (decode s.fetch.ir) ≠ some (a, v)) → t.word a = m.word a) := by
  obtain ⟨u, executed, rfl⟩ := step_running hr h
  obtain ⟨m, reads, noStore, store⟩ := exec_memory _ s.fetch u executed
  have cfg : m.cfg = s.cfg := reads.cpu.cfg.trans (s.memRead_cpu s.pc).1.cfg
  obtain ⟨kbsr, kbdr, dsr, ddr⟩ := ha.ne_device
  rw [← cfg] at kbsr kbdr dsr ddr
  refine ⟨m, reads, fun v hv => ?_, fun other => ?_⟩
  · rw [State.word_traceStep, store a v hv]
    exact ((m.memWrite_stores a v).stored ddr kbsr kbdr dsr).1
  · rw [State.word_traceStep]
    cases hs : storeOf s.fetch (decode s.fetch.ir) with
    | none => exact (noStore hs).1 a
    | some p =>
      obtain ⟨b, v⟩ := p
      have hne : a ≠ b := fun e => other v (by rw [hs, e])
      rw [store b v hs, m.memWrite_word_ne b v a hne dsr ddr]

/-- The run condition looks at the address of CLK and the word there alone (R90). -/
theorem State.running_congr {s t : State} (cfg : t.cfg = s.cfg) (clk : t.word s.cfg.clkAddr = s.word s.cfg.clkAddr) :
    t.running = s.running := by
  rw [State.running, State.running, cfg, clk]

/-- Reads after which the machine still runs have left the CLK word alone, so it ran before them too (R35, R43). -/
theorem ReadsTo.clkWord_of_running {s m : State} (h : ReadsTo s m) (hd : s.cfg.kbdrAddr ≠ s.cfg.clkAddr)
    (hm : m.running = true) : m.word s.cfg.clkAddr = s.word s.cfg.clkAddr ∧ s.running = true := by
  have clk : m.word s.cfg.clkAddr = s.word s.cfg.clkAddr := (h.clkWord hd).resolve_right (by simp [hm])
  exact ⟨clk, by rw [← State.running_congr h.cpu.cfg clk, hm]⟩

/-- In a cycle that neither stores to the address nor halts the machine, the word stays: no read changes a plain word,
and a read changes the CLK word only by clearing the run bit. -/
theorem step_keeps_word {s t : State} {a : Word} (ha : KeepsStores s.cfg a) (hr : s.running = true)
    (h : step s = .next t) (noStore : ∀ v, storeOf s.fetch (decode s.fetch.ir) ≠ some (a, v))
    (ht : t.running = true) : t.word a = s.word a := by
  obtain ⟨m, reads, -, kept⟩ := step_word ha hr h
  have fetched : ReadsTo s (s.memRead s.pc).2 := .one s s.pc
  have fetchCfg : s.fetch.cfg = s.cfg := fetched.cpu.cfg
  rcases ha with plain | ⟨distinct, rfl⟩
  · obtain ⟨-, kbdr, -, -, clk⟩ := isDevice_false plain
    calc t.word a = m.word a := kept noStore
      _ = s.fetch.word a := reads.word a (by rwa [fetchCfg]) (by rwa [fetchCfg])
      _ = s.word a := fetched.word a kbdr clk
  · obtain ⟨-, -, -, -, -, -, kbdr_ne_clk, -, -, -⟩ := distinct_ne distinct
    have cfg : t.cfg = m.cfg := by rw [(step_cfg_ir hr h).1, reads.cpu.cfg, fetchCfg]
    have running : m.running = true := by
      rw [← State.running_congr cfg (by rw [reads.cpu.cfg, fetchCfg, kept noStore]), ht]
    obtain ⟨clk, fetchRunning⟩ := reads.clkWord_of_running (by rwa [fetchCfg]) running
    rw [fetchCfg] at clk
    calc t.word s.cfg.clkAddr = m.word s.cfg.clkAddr := kept noStore
      _ = s.fetch.word s.cfg.clkAddr := clk
      _ = s.word s.cfg.clkAddr := (fetched.clkWord_of_running kbdr_ne_clk fetchRunning).1

/-- A run that ends in a running machine started in one. -/
theorem RunsWithoutStoreTo.running {a : Word} {s u : State} (h : RunsWithoutStoreTo a s u) (hu : u.running = true) :
    s.running = true := by
  cases h with
  | refl => exact hu
  | step _ _ _ running => exact running

/-- A run without a store to the address, which ends in a running machine, keeps the parameters and the word. -/
theorem RunsWithoutStoreTo.keeps {a : Word} {s u : State} (h : RunsWithoutStoreTo a s u) (ha : KeepsStores s.cfg a)
    (hu : u.running = true) : u.cfg = s.cfg ∧ u.word a = s.word a := by
  induction h with
  | refl => exact ⟨rfl, rfl⟩
  | step s t u hr h noStore rest ih =>
    have cfg : t.cfg = s.cfg := (step_cfg_ir hr h).1
    obtain ⟨restCfg, restWord⟩ := ih (by rwa [cfg]) hu
    exact ⟨restCfg.trans cfg, restWord.trans (step_keeps_word ha hr h noStore (rest.running hu))⟩

/-- A cycle at an address that keeps what is stored fetches the stored word (R43, R44, R92). -/
theorem step_ir_of_keepsStores {s t : State} (ha : KeepsStores s.cfg s.pc) (hr : s.running = true)
    (h : step s = .next t) : t.ir = s.word s.pc := by
  obtain ⟨kbsr, kbdr, -, ddr⟩ := ha.ne_device
  rw [(step_cfg_ir hr h).2, s.memRead_stored s.pc kbsr kbdr ddr]

/-- Settles O49: the storing cycle leaves the word at the address, the run between keeps it, and the fetch reads it. -/
theorem storeSeenByNextFetch : Obligations.StoreSeenByNextFetch := by
  intro s t u w a v (ha : KeepsStores s.cfg a) hs stepS store run hu hpc stepU
  subst hpc
  obtain ⟨-, -, stored, -⟩ := step_word ha hs stepS
  have cfg : t.cfg = s.cfg := (step_cfg_ir hs stepS).1
  obtain ⟨runCfg, kept⟩ := run.keeps (by rwa [cfg]) hu
  calc w.ir = u.word u.pc := step_ir_of_keepsStores (by rwa [runCfg, cfg]) hu stepU
    _ = t.word u.pc := kept
    _ = v := stored v store

end Sys2Proof.Machine
end

section
/-! PROOFS. The object file (spec/70_reset_and_hazards.md rule R175): the big-endian bytes of words read back as those
words, and a file whose words are known is the load of its image. -/

namespace Sys2Proof.Machine

/-- A word in big-endian order: its high byte, then its low byte (R54). -/
def wordBytes (w : Word) : List Byte := [BitVec.ofNat 8 (w.toNat / 256), BitVec.ofNat 8 (w.toNat % 256)]

/-- The two bytes of a word put together again. -/
theorem high_append_low (w : Word) : BitVec.ofNat 8 (w.toNat / 256) ++ BitVec.ofNat 8 (w.toNat % 256) = w := by
  have hw := w.isLt
  apply BitVec.eq_of_toNat_eq
  rw [BitVec.toNat_append, BitVec.toNat_ofNat, BitVec.toNat_ofNat, ← Nat.shiftLeft_add_eq_or_of_lt (by omega),
    Nat.shiftLeft_eq]
  omega

/-- The bytes of words are read as those words. -/
theorem fileWords_flatMap_wordBytes (words : List Word) : fileWords (words.flatMap wordBytes) = some words := by
  induction words with
  | nil => rfl
  | cons w rest ih =>
    rw [List.flatMap_cons, wordBytes, List.cons_append, List.cons_append, List.nil_append, fileWords, ih,
      high_append_low]
    rfl

/-- A file that holds a word is at least two bytes long. -/
theorem two_le_length_of_fileWords {bytes : List Byte} {w : Word} {words : List Word}
    (h : fileWords bytes = some (w :: words)) : 2 ≤ bytes.length :=
  match bytes, h with
  | _ :: _ :: _, _ => by simp

/-- A file is loaded as the image of its words: the first is the origin (R175). -/
theorem State.loadFile_of_fileWords (s : State) {bytes : List Byte} {origin : Word} {words : List Word}
    (h : fileWords bytes = some (origin :: words)) : s.loadFile bytes = s.load (origin, words) := by
  rw [State.loadFile, if_neg (Nat.not_lt.mpr (two_le_length_of_fileWords h)), h]

/-- An image without words loads nothing (R174). -/
theorem State.load_nil (s : State) (origin : Word) : s.load (origin, []) = .next s := rfl

/-- Settles O58: a file too short stops at the length test; the two bytes of an origin are an image without words; the
bytes of an origin and words are read back as them. -/
theorem objectFile : Obligations.ObjectFile := by
  refine ⟨fun s bytes short => if_pos short, fun s hi lo => ?_, fun s origin words => ?_⟩
  · rw [s.loadFile_of_fileWords (origin := hi ++ lo) (words := []) rfl, s.load_nil]
  · exact s.loadFile_of_fileWords (fileWords_flatMap_wordBytes (origin :: words))

end Sys2Proof.Machine
end

section
/-! PROOFS. The codec on every word (spec/30_encoding.md rules R67, R76, R80): decoding gives canonical fields, encoding
puts every used bit back, the unused bits are not read, and the decode table in numbers. -/

namespace Sys2Proof

/-! ### A field as a part of its word -/

/-- A field put back where it was read is the word with every other bit cleared. -/
theorem put_bits (lo len : Nat) (w : Word) : put lo (bits lo len w) = w &&& put lo (BitVec.allOnes len) := by
  ext i hi
  simp only [getElem_put, getLsbD_bits, BitVec.getElem_and, BitVec.getLsbD_allOnes]
  by_cases h : lo ≤ i
  · simp [h, ← BitVec.getLsbD_eq_getElem hi, Bool.and_comm]
  · simp [h]

/-- The same for a single bit. -/
theorem putBit_getLsbD (k : Nat) (w : Word) : putBit k (w.getLsbD k) = w &&& putBit k true := by
  ext i hi
  by_cases h : i = k
  · subst h
    simp [BitVec.getLsbD_eq_getElem hi]
  · simp [h]

/-- An extended field cut to its width again. -/
theorem setWidth_sext {w : Nat} (hw : w ≤ 16) (f : BitVec w) : (sext f).setWidth w = f := by
  ext i hi
  have inside : i < 16 := by omega
  simp [sext, BitVec.getElem_signExtend, hi, BitVec.getLsbD_eq_getElem inside]

/-- The same cut by the field's position. -/
theorem bits_sext {w : Nat} (hw : w ≤ 16) (f : BitVec w) : bits 0 w (sext f) = f :=
  (BitVec.setWidth_eq_extractLsb' hw).symm.trans (setWidth_sext hw f)

/-- An extended field is a canonical immediate (R80). -/
theorem fitsSigned_sext {w : Nat} (hw : w ≤ 16) (f : BitVec w) : fitsSigned w (sext f) = true := by
  rw [fitsSigned, setWidth_sext hw]
  exact beq_self_eq_true _

/-- Two words that agree under a mask agree on every bit of it. -/
theorem getLsbD_congr {v w mask : Word} (agree : v &&& mask = w &&& mask) (k : Nat) (hk : mask.getLsbD k = true) :
    v.getLsbD k = w.getLsbD k := by
  simpa [hk] using congrArg (BitVec.getLsbD · k) agree

/-- Two words that agree under a mask agree on every field inside it. -/
theorem bits_congr {v w mask : Word} (agree : v &&& mask = w &&& mask) (lo len : Nat)
    (inside : bits lo len mask = BitVec.allOnes len) : bits lo len v = bits lo len w := by
  ext i hi
  have inMask : mask.getLsbD (lo + i) = true := by
    rw [← getElem_bits lo len mask i hi, inside, BitVec.getElem_allOnes]
  rw [getElem_bits, getElem_bits, getLsbD_congr agree _ inMask]

/-! ### Every word -/

/-- The low six bits that the encoding of a decoded word sets whatever the word: those of NOT (R80). -/
def filledBits (w : Word) : Word :=
  if bits 12 4 w = 0x9#4 then put 0 fieldTable.notLow else 0#16

/-- The bits of the opcode as `decode` reads them (R67). -/
theorem opcode_bits (w : Word) :
    w.getLsbD 15 = (bits 12 4 w).getLsbD 3 ∧ w.getLsbD 14 = (bits 12 4 w).getLsbD 2 ∧
    w.getLsbD 13 = (bits 12 4 w).getLsbD 1 ∧ w.getLsbD 12 = (bits 12 4 w).getLsbD 0 :=
  ⟨getLsbD_of_opcode rfl (k := 3) (by decide), getLsbD_of_opcode rfl (k := 2) (by decide),
    getLsbD_of_opcode rfl (k := 1) (by decide), getLsbD_of_opcode rfl (k := 0) (by decide)⟩

/-- The sixteen opcodes, named after their instructions (R68). -/
theorem opcode_cases {P : BitVec 4 → Prop} (br : P 0x0#4) (add : P 0x1#4) (ld : P 0x2#4) (st : P 0x3#4) (jsr : P 0x4#4)
    (and : P 0x5#4) (ldr : P 0x6#4) (str : P 0x7#4) (rti : P 0x8#4) (not : P 0x9#4) (ldi : P 0xA#4) (sti : P 0xB#4)
    (jmp : P 0xC#4) (reserved : P 0xD#4) (lea : P 0xE#4) (trap : P 0xF#4) (op : BitVec 4) : P op := by
  have all : op = 0x0#4 ∨ op = 0x1#4 ∨ op = 0x2#4 ∨ op = 0x3#4 ∨ op = 0x4#4 ∨ op = 0x5#4 ∨ op = 0x6#4 ∨ op = 0x7#4 ∨
      op = 0x8#4 ∨ op = 0x9#4 ∨ op = 0xA#4 ∨ op = 0xB#4 ∨ op = 0xC#4 ∨ op = 0xD#4 ∨ op = 0xE#4 ∨ op = 0xF#4 := by
    revert op
    decide
  rcases all with rfl | rfl | rfl | rfl | rfl | rfl | rfl | rfl | rfl | rfl | rfl | rfl | rfl | rfl | rfl | rfl <;>
    assumption

/-- Every word decodes to canonical fields (R80). -/
theorem wellFormed_decode (w : Word) : (decode w).wellFormed = true := by
  obtain ⟨w15, w14, w13, w12⟩ := opcode_bits w
  simp only [decode, w15, w14, w13, w12]
  generalize bits 12 4 w = op
  cases op using opcode_cases
  case add | and | jsr => dsimp only [BitVec.reduceGetLsb]; split <;> simp [Instr.wellFormed, fitsSigned_sext]
  all_goals simp [Instr.wellFormed, fitsSigned_sext]

/-- A word's bits under a mask are its used bits when the mask is that of its format and nothing is filled in. -/
theorem and_mask_eq {w m u f : Word} (used : m = u) (filled : f = 0#16) : w &&& m = w &&& u ||| f := by
  rw [used, filled, BitVec.or_zero]

/-- The encoding of a decoded word: its used bits, and the filled ones. Every field is put back as the bits of the word
it was read from (`put_bits`), and so are the opcode and the mode bit. -/
theorem encode_decode (w : Word) : encode (decode w) = w &&& usedBits w ||| filledBits w := by
  have opcode : put 12 (bits 12 4 w) = w &&& put 12 (BitVec.allOnes 4) := put_bits 12 4 w
  have modeBit : ∀ {k : Nat} {b : Bool}, w.getLsbD k = b → putBit k b = w &&& putBit k true :=
    fun h => h ▸ putBit_getLsbD _ w
  obtain ⟨w15, w14, w13, w12⟩ := opcode_bits w
  unfold decode usedBits filledBits
  rw [w15, w14, w13, w12]
  generalize bits 12 4 w = op at opcode
  cases op using opcode_cases <;> simp only [BitVec.reduceGetLsb]
  case add | and =>
    cases mode : w.getLsbD 5
    · rw [if_neg (show false ≠ fieldTable.immMode from nofun)]
      simp only [encode, opcodeOf, operandBits, opcode, put_bits, modeBit (b := !fieldTable.immMode) mode,
        ← BitVec.and_or_distrib_left]
      exact and_mask_eq (by decide) (by decide)
    · rw [if_pos (show true = fieldTable.immMode from rfl)]
      simp (disch := decide) only [encode, opcodeOf, operandBits, opcode, put_bits, bits_sext,
        modeBit (b := fieldTable.immMode) mode, ← BitVec.and_or_distrib_left]
      exact and_mask_eq (by decide) (by decide)
  case jsr =>
    cases mode : w.getLsbD 11
    · rw [if_neg (show false ≠ fieldTable.offsetMode from nofun)]
      simp only [encode, opcodeOf, operandBits, opcode, put_bits, modeBit (b := !fieldTable.offsetMode) mode,
        ← BitVec.and_or_distrib_left]
      exact and_mask_eq (by decide) (by decide)
    · rw [if_pos (show true = fieldTable.offsetMode from rfl)]
      simp (disch := decide) only [encode, opcodeOf, operandBits, opcode, put_bits, bits_sext,
        modeBit (b := fieldTable.offsetMode) mode, ← BitVec.and_or_distrib_left]
      exact and_mask_eq (by decide) (by decide)
  case not =>
    simp only [encode, opcodeOf, operandBits, opcode, put_bits, ← BitVec.and_or_distrib_left, ← BitVec.or_assoc]
    rfl
  case rti =>
    simp only [encode, opcodeOf, operandBits, opcode, BitVec.or_zero]
    exact and_mask_eq (by decide) (by decide)
  all_goals
    simp (disch := decide) only [encode, opcodeOf, operandBits, opcode, put_bits, putBit_getLsbD, bits_sext,
      ← BitVec.and_or_distrib_left]
    exact and_mask_eq (by decide) (by decide)

/-- What is filled in is not used. -/
theorem filledBits_and_usedBits (w : Word) : filledBits w &&& usedBits w = 0#16 := by
  obtain ⟨w15, w14, w13, w12⟩ := opcode_bits w
  rw [filledBits]
  split
  · next op =>
    simp only [usedBits, w15, w14, w13, w12, op, BitVec.reduceGetLsb]
    decide
  · exact BitVec.zero_and

/-- The opcode is always used. -/
theorem bits_usedBits_opcode (w : Word) : bits 12 4 (usedBits w) = BitVec.allOnes 4 := by
  unfold usedBits
  split
  case h_1 | h_2 | h_3 => split <;> decide
  all_goals decide

/-- The used bits of a word tell its format: a word that agrees on them has the same. -/
theorem usedBits_congr {v w : Word} (agree : v &&& usedBits w = w &&& usedBits w) : usedBits v = usedBits w := by
  have opcode : bits 12 4 v = bits 12 4 w := bits_congr agree 12 4 (bits_usedBits_opcode w)
  have modeBit : ∀ k, (usedBits w).getLsbD k = true → v.getLsbD k = w.getLsbD k := getLsbD_congr agree
  obtain ⟨v15, v14, v13, v12⟩ := opcode_bits v
  obtain ⟨w15, w14, w13, w12⟩ := opcode_bits w
  simp only [usedBits, v15, v14, v13, v12, opcode, w15, w14, w13, w12] at modeBit ⊢
  generalize bits 12 4 w = op at modeBit ⊢
  cases op using opcode_cases <;> simp only [BitVec.reduceGetLsb] at modeBit ⊢
  case add | and => rw [modeBit 5 (by split <;> rfl)]
  case jsr => rw [modeBit 11 (by split <;> rfl)]

namespace Machine

/-! ### The decode table in numbers -/

/-- A field as a number (R6). -/
theorem fieldNat_eq (w : Word) (lo len : Nat) : fieldNat w lo len = (bits lo len w).toNat := by
  rw [fieldNat, bits, BitVec.extractLsb'_toNat, Nat.shiftRight_eq_div_pow]

/-- A field of one bit as a number. -/
theorem toNat_bits_one (w : Word) (k : Nat) : ((bits k 1 w).toNat == 1) = w.getLsbD k := by
  rw [← fieldNat_eq, fieldNat, BitVec.getLsbD, Nat.testBit_eq_decide_div_mod_eq]
  rfl

/-- The sign extension in numbers is that of the field (R64). -/
theorem sextNat_toNat {w : Nat} (hw : w ≤ 16) (f : BitVec w) : sextNat w f.toNat = sext f := by
  have sign : (sext f).toNat = if f.toNat < 2 ^ (w - 1) then f.toNat else f.toNat + (65536 - 2 ^ w) := by
    rw [toNat_sext hw, ← BitVec.msb_eq_getLsbD_last, BitVec.msb_eq_decide]
    by_cases low : f.toNat < 2 ^ (w - 1)
    · simp [low, Nat.not_le.mpr low]
    · simp [low, Nat.not_lt.mp low]
  rw [sextNat, ← sign, BitVec.ofNat_toNat, BitVec.setWidth_eq]

/-- Settles O1: it is `decode_encode`. -/
theorem decodeOfEncode : Obligations.DecodeOfEncode :=
  decode_encode

/-- Settles O2: an encoding decodes to its instruction (`decode_encode`), a decoded word is well formed, and the
encoding of a decoded word adds to its used bits only bits that are not used. -/
theorem encodeOfDecode : Obligations.EncodeOfDecode := by
  refine ⟨?_, fun w => ⟨wellFormed_decode w, decode_encode _ (wellFormed_decode w), ?_⟩⟩
  · rintro _ ⟨i, hwf, rfl⟩
    rw [decode_encode i hwf]
  · rw [encode_decode, BitVec.and_or_distrib_right, filledBits_and_usedBits, BitVec.or_zero, BitVec.and_assoc,
      BitVec.and_self]

/-- Settles O3: the encodings of the two decoded words are the same word, so the decoded instructions are the same. -/
theorem decodeIgnoresUnusedBits : Obligations.DecodeIgnoresUnusedBits := by
  intro v w agree
  have opcode : bits 12 4 v = bits 12 4 w := bits_congr agree 12 4 (bits_usedBits_opcode w)
  have canonical : encode (decode v) = encode (decode w) := by
    rw [encode_decode, encode_decode, usedBits_congr agree, agree, filledBits, filledBits, opcode]
  rw [← decode_encode _ (wellFormed_decode v), canonical, decode_encode _ (wellFormed_decode w)]

/-- Settles O4: every field in numbers is the field `decode` takes, and the opcode selects the same arm. -/
theorem decodeMatchesTable : Obligations.DecodeMatchesTable := by
  intro w
  obtain ⟨w15, w14, w13, w12⟩ := opcode_bits w
  simp (disch := decide) only [decode, decodeByTable, w15, w14, w13, w12, fieldNat_eq, toNat_bits_one, sextNat_toNat,
    BitVec.ofNat_toNat, BitVec.setWidth_eq]
  generalize bits 12 4 w = op
  cases op using opcode_cases <;> rfl

/-- Settles O5: the words compute. -/
theorem specWordsDecode : Obligations.SpecWordsDecode := by
  unfold Obligations.SpecWordsDecode
  decide

end Machine
end Sys2Proof
end

section
/-! PROOFS. The invariant of spec/10_state.md section 7 (rule R27) over the cycle: fetch, the reads and the one store of
the execute step, the trace step. -/

namespace Sys2Proof.Machine

/-- Reads keep the invariant. -/
theorem Inv.reads {s m : State} (h : Inv s) (reads : ReadsTo s m) : Inv m := by
  induction reads with
  | refl => exact h
  | read m a _ ih => exact ih.memRead a

/-- The fetch step keeps the invariant: after its read it changes IR and the PC alone. -/
theorem Inv.fetch {s : State} (h : Inv s) : Inv s.fetch :=
  (h.memRead s.pc).congr rfl rfl

/-- An execute step keeps the invariant: what it does to memory is its reads, then its one store. -/
theorem Inv.exec {i : Instr} {s t : State} (h : Inv s) (executed : exec i s = .next t) : Inv t := by
  obtain ⟨m, reads, noStore, store⟩ := exec_memory i s t executed
  obtain ⟨-, -, cfg, -, -⟩ := exec_cpu i s t executed
  cases hs : storeOf s i with
  | none => exact (h.reads reads).congr (cfg.trans reads.cpu.cfg.symm) (noStore hs).2.2
  | some p =>
    rw [store p.1 p.2 hs]
    exact (h.reads reads).memWrite p.1 p.2

/-- Settles O10: a halted step changes nothing; fetch, execute and trace step each keep the invariant. -/
theorem invKeptByStep : Obligations.InvKeptByStep := by
  intro s t h stepped
  cases hr : s.running with
  | false =>
    obtain rfl : s = t := by rw [step_halted hr] at stepped; injection stepped
    exact h
  | true =>
    obtain ⟨u, executed, rfl⟩ := step_running hr stepped
    exact (h.fetch.exec executed).congr rfl rfl

end Sys2Proof.Machine
end

section
/-! PROOFS. The load port (spec/70_reset_and_hazards.md rules R173, R174): which addresses an image covers, what storing
it does, and when it is accepted. -/

namespace Sys2Proof.Machine

/-- The address of word `j + 1` of an image is that of word `j` of the rest of it. -/
theorem add_ofNat_succ (origin : Word) (j : Nat) :
    origin + BitVec.ofNat 16 (j + 1) = origin + 1 + BitVec.ofNat 16 j := by
  rw [BitVec.ofNat_add, BitVec.add_assoc, BitVec.add_comm 1]
  rfl

/-- The addresses of an image are the origin plus the index of each word, wrapping. -/
theorem mem_imageAddrs {a origin : Word} {words : List Word} :
    a ∈ imageAddrs origin words ↔ ∃ j < words.length, a = origin + BitVec.ofNat 16 j := by
  induction words generalizing origin with
  | nil => simp [imageAddrs]
  | cons w rest ih =>
    rw [imageAddrs, List.mem_cons, ih, List.length_cons]
    constructor
    · rintro (rfl | ⟨j, hj, rfl⟩)
      · exact ⟨0, by omega, by simp⟩
      · exact ⟨j + 1, by omega, (add_ofNat_succ origin j).symm⟩
    · rintro ⟨_ | j, hj, rfl⟩
      · exact .inl (by simp)
      · exact .inr ⟨j, by omega, add_ofNat_succ origin j⟩

/-- Storing an image changes only the storage array. -/
theorem State.storeImage_frame (s : State) (origin : Word) (words : List Word) :
    SameCpu s (s.storeImage origin words) ∧ SamePorts s (s.storeImage origin words) := by
  induction words generalizing s origin with
  | nil => exact ⟨SameCpu.refl s, SamePorts.refl s⟩
  | cons w rest ih =>
    obtain ⟨cpu, ports⟩ := ih (s.setWord origin w) (origin + 1)
    exact ⟨⟨cpu.regs, cpu.pc, cpu.ir, cpu.cc, cpu.pred, cpu.cfg⟩, ports⟩

/-- Storing an image leaves every word outside it alone. -/
theorem State.storeImage_word_of_not_mem (s : State) {a origin : Word} {words : List Word}
    (h : a ∉ imageAddrs origin words) : (s.storeImage origin words).word a = s.word a := by
  induction words generalizing s origin with
  | nil => rfl
  | cons w rest ih =>
    rw [imageAddrs, List.mem_cons, not_or] at h
    rw [State.storeImage, ih (s.setWord origin w) h.2, s.word_setWord_ne origin a w h.1]

/-- An image no longer than the memory does not wrap onto its own first word. -/
theorem origin_not_mem_imageAddrs {origin : Word} {rest : List Word} (h : rest.length < 65536) :
    origin ∉ imageAddrs (origin + 1) rest := by
  rw [mem_imageAddrs]
  rintro ⟨j, hj, e⟩
  bv_omega

/-- An image no longer than the memory is stored word by word. -/
theorem State.storeImage_word (s : State) (origin : Word) (words : List Word) (hlen : words.length ≤ 65536) (j : Nat)
    (hj : j < words.length) : (s.storeImage origin words).word (origin + BitVec.ofNat 16 j) = words[j] := by
  induction words generalizing s origin j with
  | nil => cases hj
  | cons w rest ih =>
    rw [List.length_cons] at hlen hj
    cases j with
    | zero =>
      rw [State.storeImage, BitVec.add_zero,
        State.storeImage_word_of_not_mem _ (origin_not_mem_imageAddrs (by omega)), State.word_setWord_self]
      rfl
    | succ j =>
      rw [add_ofNat_succ, State.storeImage, ih _ _ (by omega) j (by omega)]
      rfl

/-- An image that covers no device register is stored. -/
theorem State.load_of_plain (s : State) {origin : Word} {words : List Word}
    (h : ∀ a ∈ imageAddrs origin words, s.cfg.isDevice a = false) :
    s.load (origin, words) = .next (s.storeImage origin words) := by
  have plain : ¬ (imageAddrs origin words).any s.cfg.isDevice = true := by simpa using h
  rw [State.load, if_neg plain]

/-- An image that covers a device register is refused. -/
theorem State.load_of_device (s : State) {a origin : Word} {words : List Word} (ha : a ∈ imageAddrs origin words)
    (h : s.cfg.isDevice a = true) : s.load (origin, words) = .refused .imageCoversDevice := by
  rw [State.load, if_pos (List.any_eq_true.mpr ⟨a, ha, h⟩)]

/-- A load that is accepted covers no device register and stores its image. -/
theorem State.load_next {s t : State} {image : Image} (h : s.load image = .next t) :
    (∀ a ∈ imageAddrs image.1 image.2, s.cfg.isDevice a = false) ∧ t = s.storeImage image.1 image.2 := by
  have plain : ∀ a ∈ imageAddrs image.1 image.2, s.cfg.isDevice a = false := by
    intro a ha
    by_contra device
    rw [s.load_of_device ha (Bool.eq_true_of_not_eq_false device)] at h
    cases h
  rw [s.load_of_plain plain] at h
  injection h with h
  exact ⟨plain, h.symm⟩

/-- Settles O56: the addresses of the image are the plain ones of the hypothesis, so the load is accepted. -/
theorem loadPlacesImage : Obligations.LoadPlacesImage := by
  intro s origin words hlen hplain
  have plain : ∀ a ∈ imageAddrs origin words, s.cfg.isDevice a = false := by
    intro a ha
    obtain ⟨j, hj, rfl⟩ := mem_imageAddrs.mp ha
    exact hplain j hj
  obtain ⟨cpu, ports⟩ := s.storeImage_frame origin words
  refine ⟨_, s.load_of_plain plain, cpu, ports, s.storeImage_word origin words hlen, fun a ha => ?_⟩
  refine s.storeImage_word_of_not_mem fun hmem => ?_
  obtain ⟨j, hj, e⟩ := mem_imageAddrs.mp hmem
  exact ha j hj e

/-- Settles O57: the device address is one of the image's. -/
theorem loadOverDeviceRefused : Obligations.LoadOverDeviceRefused := by
  intro s origin words j hj device
  exact s.load_of_device (mem_imageAddrs.mpr ⟨j, hj, rfl⟩) device

/-! ### Several loads -/

/-- The first of several loads is accepted, and the others follow it. -/
theorem State.loadAll_cons_next {s t : State} {image : Image} {rest : List Image}
    (h : s.loadAll (image :: rest) = .next t) : ∃ u, s.load image = .next u ∧ u.loadAll rest = .next t := by
  rw [State.loadAll] at h
  cases hl : s.load image with
  | next u => rw [hl] at h; exact ⟨u, rfl, h⟩
  | fault r => rw [hl] at h; cases h
  | refused r => rw [hl] at h; cases h

/-- What every accepted load keeps, accepted loads keep. -/
theorem State.loadAll_keeps {P : State → Prop} {images : List Image}
    (keep : ∀ image ∈ images, ∀ s t : State, P s → s.load image = .next t → P t) {s t : State} (h : P s)
    (loaded : s.loadAll images = .next t) : P t := by
  induction images generalizing s with
  | nil => injection loaded with e; exact e ▸ h
  | cons image rest ih =>
    obtain ⟨u, first, others⟩ := State.loadAll_cons_next loaded
    exact ih (fun i hi => keep i (List.mem_cons_of_mem _ hi)) (keep image List.mem_cons_self s u h first) others

/-- The last of several loads is accepted from the state the others lead to. -/
theorem State.loadAll_append_singleton {s t : State} {images : List Image} {last : Image}
    (h : s.loadAll (images ++ [last]) = .next t) : ∃ u : State, u.load last = .next t := by
  induction images generalizing s with
  | nil =>
    obtain ⟨u, first, rest⟩ := State.loadAll_cons_next h
    injection rest with e
    exact ⟨s, e ▸ first⟩
  | cons image rest ih =>
    obtain ⟨u, -, others⟩ := State.loadAll_cons_next h
    exact ih others

/-- Settles O60: nothing is stored after the last image. -/
theorem laterLoadWins : Obligations.LaterLoadWins := by
  intro s t images origin words hlen loaded j hj
  obtain ⟨u, last⟩ := State.loadAll_append_singleton loaded
  rw [(State.load_next last).2]
  exact u.storeImage_word origin words hlen j hj

end Sys2Proof.Machine
end

section
/-! PROOFS. Reset and launch (spec/10_state.md section 7, spec/70_reset_and_hazards.md sections 1 and 2): the words of
the reset state, the state after a launch, and the invariant from the launch on. -/

namespace Sys2Proof.Machine

/-- The words of the reset state: the ready bit of DSR and CLK, 0 elsewhere (R26). -/
theorem State.word_resetWith (c : Config) (a : Word) :
    (State.resetWith c).word a = if a = c.dsrAddr ∨ a = c.clkAddr then 0x8000#16 else 0x0000#16 := by
  have stored : (State.resetWith c).word a = if a = c.clkAddr then 0x8000#16 else
      if a = c.dsrAddr then 0x8000#16 else 0x0000#16 := by
    simp only [State.word, State.resetWith, State.resetMem, Memory.read_write, Memory.read_empty, Memory.unlisted]
  rw [stored]
  by_cases clk : a = c.clkAddr <;> simp [clk]

theorem State.reg_resetWith (c : Config) (r : Reg) : (State.resetWith c).reg r = 0x0000#16 := by
  simp [State.reg, State.resetWith]

theorem State.running_resetWith (c : Config) : (State.resetWith c).running = true := by
  have clk : (State.resetWith c).word c.clkAddr = 0x8000#16 := by simp [State.word_resetWith]
  rw [State.running]
  exact congrArg (BitVec.getLsbD · 15) clk

/-- Settles O8: the words by `State.word_resetWith`, the other fields by definition. -/
theorem resetState : Obligations.ResetState :=
  ⟨fun c => ⟨rfl, State.reg_resetWith c, rfl, rfl, rfl, rfl, rfl, State.running_resetWith c, State.word_resetWith c⟩,
    rfl⟩

/-- The reset state meets the invariant. -/
theorem inv_resetWith {c : Config} (distinct : c.Distinct) : Inv (State.resetWith c) := by
  obtain ⟨-, -, -, -, kbdr_ne_dsr, -, kbdr_ne_clk, dsr_ne_ddr, -, ddr_ne_clk⟩ := distinct_ne distinct
  have cfg : (State.resetWith c).cfg = c := rfl
  refine ⟨distinct, State.resetMem_wf c, ?_, ?_, ?_⟩ <;> rw [cfg, State.word_resetWith]
  · simp [dsr_ne_ddr.symm, ddr_ne_clk]
  · simp
  · simp [kbdr_ne_dsr, kbdr_ne_clk]

/-- Settles O9: the default addresses are distinct. -/
theorem invAtReset : Obligations.InvAtReset :=
  ⟨fun _ distinct => inv_resetWith distinct, inv_resetWith (show Config.default.Distinct by decide)⟩

/-! ### The host's moves -/

/-- Storing to an address that is none of DDR, DSR and KBDR keeps the invariant. -/
theorem Inv.setWord {s : State} (h : Inv s) {a : Word} (v : Word) (ddr : a ≠ s.cfg.ddrAddr) (dsr : a ≠ s.cfg.dsrAddr)
    (kbdr : a ≠ s.cfg.kbdrAddr) : Inv (s.setWord a v) := by
  refine ⟨h.distinct, s.setWord_wf a v h.memWf, ?_, ?_, ?_⟩ <;> rw [State.setWord_cfg]
  · rw [s.word_setWord_ne a _ v ddr.symm]; exact h.ddr
  · rw [s.word_setWord_ne a _ v dsr.symm]; exact h.dsr
  · rw [s.word_setWord_ne a _ v kbdr.symm]; exact h.kbdr

/-- The halt request stores to CLK. -/
theorem Inv.hostHalt {s : State} (h : Inv s) : Inv s.hostHalt := by
  obtain ⟨-, -, -, -, -, -, kbdr_ne_clk, -, dsr_ne_clk, ddr_ne_clk⟩ := distinct_ne h.distinct
  exact h.setWord _ ddr_ne_clk.symm dsr_ne_clk.symm kbdr_ne_clk.symm

/-- The start changes the PC alone. -/
theorem Inv.start {s : State} (h : Inv s) : Inv s.start :=
  h.congr rfl rfl

/-- Storing an image that covers no device register keeps the invariant. -/
theorem Inv.storeImage {s : State} (h : Inv s) {origin : Word} {words : List Word}
    (plain : ∀ a ∈ imageAddrs origin words, s.cfg.isDevice a = false) : Inv (s.storeImage origin words) := by
  induction words generalizing s origin with
  | nil => exact h
  | cons w rest ih =>
    obtain ⟨-, kbdr, dsr, ddr, -⟩ := isDevice_false (plain origin List.mem_cons_self)
    exact ih (h.setWord w ddr dsr kbdr) fun a ha => plain a (List.mem_cons_of_mem _ ha)

/-- An accepted load keeps the invariant. -/
theorem Inv.load {s t : State} {image : Image} (h : Inv s) (loaded : s.load image = .next t) : Inv t := by
  obtain ⟨plain, rfl⟩ := State.load_next loaded
  exact h.storeImage plain

/-- Settles O11: neither the halt request nor an accepted load stores to DDR, DSR or KBDR. -/
theorem invKeptByHost : Obligations.InvKeptByHost :=
  fun _ h => ⟨h.hostHalt, h.start, fun _ _ => h.load⟩

/-- An accepted launch is the start after accepted loads from reset (R172). -/
theorem launch_next {c : Config} {images : List Image} {s : State} (h : launch c images = .next s) :
    ∃ t, (State.resetWith c).loadAll images = .next t ∧ s = t.start := by
  rw [launch] at h
  cases hl : (State.resetWith c).loadAll images with
  | next t => rw [hl] at h; injection h with h; exact ⟨t, rfl, h.symm⟩
  | fault r => rw [hl] at h; cases h
  | refused r => rw [hl] at h; cases h

/-- Settles O12: the launch leads from reset to a state that meets the invariant, and every move keeps it. -/
theorem invOfReachable : Obligations.InvOfReachable := by
  intro c images s distinct reachable
  induction reachable with
  | launched s launched =>
    obtain ⟨t, loaded, rfl⟩ := launch_next launched
    exact (State.loadAll_keeps (fun _ _ _ _ => Inv.load) (inv_resetWith distinct) loaded).start
  | moved s t _ move h =>
    cases move with
    | cycle _ _ stepped => exact invKeptByStep s t h stepped
    | hostHalt => exact h.hostHalt

/-! ### What a launch leaves -/

/-- `s` is `r` with the words of images stored: the rest of the state is as before, and so is every word of a device
register or outside the images. -/
structure LoadedFrom (images : List Image) (r s : State) : Prop where
  cpu : SameCpu r s
  ports : SamePorts r s
  device : ∀ a, r.cfg.isDevice a = true → s.word a = r.word a
  outside : ∀ a, (∀ image ∈ images, a ∉ imageAddrs image.1 image.2) → s.word a = r.word a

theorem LoadedFrom.refl (images : List Image) (r : State) : LoadedFrom images r r :=
  ⟨SameCpu.refl r, SamePorts.refl r, fun _ _ => rfl, fun _ _ => rfl⟩

/-- One more accepted load; it covers no device register. -/
theorem LoadedFrom.load {images : List Image} {r s t : State} {image : Image} (h : LoadedFrom images r s)
    (hmem : image ∈ images) (loaded : s.load image = .next t) : LoadedFrom images r t := by
  obtain ⟨plain, rfl⟩ := State.load_next loaded
  obtain ⟨cpu, input', output', log'⟩ := s.storeImage_frame image.1 image.2
  obtain ⟨input, output, log⟩ := h.ports
  refine ⟨h.cpu.trans cpu, ⟨input'.trans input, output'.trans output, log'.trans log⟩,
    fun a device => ?_, fun a outside => ?_⟩
  · have notCovered : a ∉ imageAddrs image.1 image.2 := by
      intro hmem
      rw [← h.cpu.cfg, plain a hmem] at device
      cases device
    rw [s.storeImage_word_of_not_mem notCovered, h.device a device]
  · rw [s.storeImage_word_of_not_mem (outside image hmem), h.outside a outside]

/-- Settles O59: the loads leave everything but memory as at reset, the CLK word included, and the start sets the PC. -/
theorem launchedState : Obligations.LaunchedState := by
  intro c images s launched
  obtain ⟨t, loaded, rfl⟩ := launch_next launched
  have h : LoadedFrom images (State.resetWith c) t :=
    State.loadAll_keeps (fun _ hmem _ _ h => h.load hmem) (LoadedFrom.refl images _) loaded
  have running : t.running = true := by
    have clk : c.isDevice c.clkAddr = true := by simp [Config.isDevice]
    rw [State.running_congr h.cpu.cfg (h.device _ clk), State.running_resetWith]
  obtain ⟨-, -, log⟩ := h.ports
  refine ⟨h.cpu.cfg, congrArg Config.startPc h.cpu.cfg, fun r => ?_, h.cpu.ir, h.cpu.cc, h.cpu.pred, log, running,
    h.outside⟩
  exact (h.cpu.reg r).trans (State.reg_resetWith c r)

end Sys2Proof.Machine
end

section
/-! PROOFS. The whole cycle (spec/40_instruction_cycle.md, spec/10_state.md section 1, spec/20_memory.md section 4): it
completes, what it does to the PC, the registers, the condition code, the words of plain storage and the port calls. -/

namespace Sys2Proof.Machine

/-! ### Completion and halt -/

/-- No instruction faults or is refused (R98). -/
theorem exec_next (i : Instr) (s : State) : ∃ t : State, exec i s = .next t := by
  cases i <;> exact ⟨_, rfl⟩

/-- Settles O13: a halted step answers the same state, a running one the traced execute step. -/
theorem stepNeverStops : Obligations.StepNeverStops := by
  refine ⟨fun s => ?_, exec_next⟩
  cases hr : s.running with
  | false => exact ⟨s, step_halted hr⟩
  | true =>
    obtain ⟨t, executed⟩ := exec_next (decode s.fetch.ir) s.fetch
    exact ⟨t.traceStep, step_of_exec hr executed⟩

/-- A run goes on from the state its first step answers. -/
theorem run_succ_of_step (M : Host.Core) {s t : M.State} (n : Nat) (h : M.step s = .next t) :
    M.run (n + 1) s = M.run n t := by
  rw [Host.Core.run, h]

/-- Settles O15, by induction on the number of steps. -/
theorem haltIsFinal : Obligations.HaltIsFinal := by
  intro s n hr
  induction n with
  | zero => rfl
  | succ n ih => exact (run_succ_of_step Sys2Proof.core n (step_halted hr)).trans ih

/-! ### PC, registers, condition code -/

/-- Trap entry goes where the vector word says: the link write before the read does not change it (R130). -/
theorem State.trapEntry_pc (s : State) (vect : BitVec 8) : (s.trapEntry vect).pc = (s.memRead (zext vect)).1 := by
  rw [State.trapEntry, State.link, State.memRead_setReg, State.setPc_pc]

/-- Settles O42: the execute step starts at the incremented PC, and reads and writes leave the PC alone. -/
theorem pcAfterCycle : Obligations.PcAfterCycle := by
  intro s t a1 hr stepped ha1
  obtain ⟨u, executed, rfl⟩ := step_running hr stepped
  obtain ⟨-, fetchPc, fetchRegs, fetchCc, -, -, -, -⟩ := s.fetch_spec
  have pc : s.fetch.pc = a1 := by rw [fetchPc, pc_add_one, ha1]
  have reg : ∀ r, s.fetch.reg r = s.reg r := fun r => fetchRegs r (by simp)
  rw [State.traceStep_pc]
  generalize decode s.fetch.ir = i at executed
  cases i <;> injection executed with executed <;> subst executed
  case br n z p off => simp [State.eaPc, pc, fetchCc]
  case jsr off => simp [State.eaPc, pc]
  case jmp base => exact reg base
  case jsrr base => exact reg base
  case trap vect => exact s.fetch.trapEntry_pc vect
  case st => exact (State.memWrite_stores _ _ _).cpu.pc.trans pc
  case str => exact (State.memWrite_stores _ _ _).cpu.pc.trans pc
  case sti => exact (State.memWrite_stores _ _ _).cpu.pc.trans ((State.memRead_cpu _ _).1.pc.trans pc)
  case ld => exact (State.loadFrom_loads _ _ _).pc.trans pc
  case ldr => exact (State.loadFrom_loads _ _ _).pc.trans pc
  case ldi => exact (State.loadFrom_loads _ _ _).pc.trans ((State.memRead_cpu _ _).1.pc.trans pc)
  all_goals exact pc

/-- Settles O43: the fetch keeps the registers, and the link write saves the PC the fetch incremented. -/
theorem registerWriters : Obligations.RegisterWriters := by
  intro s t hr stepped
  obtain ⟨u, executed, rfl⟩ := step_running hr stepped
  obtain ⟨others, -, -, -, -⟩ := exec_cpu _ s.fetch u executed
  obtain ⟨-, fetchPc, fetchRegs, -, -, -, -, -⟩ := s.fetch_spec
  have linked : ∀ a : Word, (s.fetch.link.setPc a).reg linkReg = s.pc + 1 := fun a =>
    (s.fetch.reg_setReg_self linkReg s.fetch.pc).trans fetchPc
  refine ⟨fun r hr => (others r hr).trans (fetchRegs r (by simp)), fun off h => ?_, fun base h => ?_,
    fun vect h => ?_⟩
  · obtain rfl : s.fetch.link.setPc (s.fetch.eaPc off) = u := by rw [h] at executed; injection executed
    exact linked (s.fetch.eaPc off)
  · obtain rfl : s.fetch.link.setPc (s.fetch.reg base) = u := by rw [h] at executed; injection executed
    exact linked (s.fetch.reg base)
  · obtain rfl : s.fetch.trapEntry vect = u := by rw [h] at executed; injection executed
    obtain ⟨-, link, -, -, -, -, -, -, -⟩ := s.fetch.trapEntry_spec vect
    exact link.trans fetchPc

/-- Settles O44: the fetch keeps the condition code, and `exec_cpu` says what the execute step does to it. -/
theorem conditionCodeWriters : Obligations.ConditionCodeWriters := by
  intro s t hr stepped
  obtain ⟨u, executed, rfl⟩ := step_running hr stepped
  obtain ⟨-, -, -, set, kept⟩ := exec_cpu _ s.fetch u executed
  obtain ⟨-, -, -, fetchCc, -, -, -, -⟩ := s.fetch_spec
  exact ⟨set, fun h => (kept h).trans fetchCc⟩

/-! ### Memory and ports -/

/-- Settles O45: each of the ten writes at most registers, PC, condition code and predictor. -/
theorem noDataAccessInstructions : Obligations.NoDataAccessInstructions := by
  intro i s t noAccess executed
  cases i
  case ld | st | ldr | str | ldi | sti | trap => cases noAccess
  all_goals
    injection executed with executed
    subst executed
    exact ⟨rfl, rfl, fun _ => rfl, rfl, rfl, rfl⟩

/-- Settles O46: a plain word is none of those that the reads of the cycle change. -/
theorem plainWordsChangeOnlyByStores : Obligations.PlainWordsChangeOnlyByStores := by
  intro s t a hr stepped plain
  obtain ⟨m, reads, stored, kept⟩ := step_word (.inl plain) hr stepped
  obtain ⟨-, kbdr, -, -, clk⟩ := isDevice_false plain
  have fetched : ReadsTo s (s.memRead s.pc).2 := .one s s.pc
  have fetchCfg : s.fetch.cfg = s.cfg := fetched.cpu.cfg
  refine ⟨stored, fun noStore => ?_⟩
  calc t.word a = m.word a := kept noStore
    _ = s.fetch.word a := reads.word a (by rwa [fetchCfg]) (by rwa [fetchCfg])
    _ = s.word a := fetched.word a kbdr clk

/-- A MemWrite only adds to the sequence of port calls. -/
theorem State.memWrite_log (s : State) (a v : Word) : ∃ calls, (s.memWrite a v).log = calls ++ s.log := by
  by_cases ddr : a = s.cfg.ddrAddr
  · obtain ⟨-, -, -, log, -⟩ := s.ddrWrite_spec v
    rw [s.memWrite_ddr v ddr, log]
    exact ⟨[_], rfl⟩
  · by_cases ignored : a = s.cfg.kbsrAddr ∨ a = s.cfg.kbdrAddr ∨ a = s.cfg.dsrAddr
    · rw [s.memWrite_ignored v ddr ignored]
      exact ⟨[], rfl⟩
    · rw [s.memWrite_stored v ddr ignored]
      exact ⟨[], rfl⟩

/-- An execute step only adds to the sequence of port calls. -/
theorem exec_log {i : Instr} {s t : State} (h : exec i s = .next t) : ∃ calls, t.log = calls ++ s.log := by
  obtain ⟨m, reads, noStore, store⟩ := exec_memory i s t h
  obtain ⟨calls, log⟩ := reads.log
  cases hs : storeOf s i with
  | none => exact ⟨calls, by rw [(noStore hs).2.1.2.2, log]⟩
  | some p =>
    obtain ⟨last, written⟩ := m.memWrite_log p.1 p.2
    exact ⟨last ++ calls, by rw [store p.1 p.2 hs, written, log, List.append_assoc]⟩

/-- Settles O48: the fetch, the execute step and the trace step each add calls at the end. -/
theorem cycleKeepsRecord : Obligations.CycleKeepsRecord := by
  intro s t hr stepped
  obtain ⟨cfg, ir⟩ := step_cfg_ir hr stepped
  refine ⟨cfg, ir, ?_⟩
  obtain ⟨u, executed, rfl⟩ := step_running hr stepped
  obtain ⟨fetchCalls, fetchLog⟩ := (ReadsTo.one s s.pc).log
  obtain ⟨calls, log⟩ := exec_log executed
  have fetched : s.fetch.log = fetchCalls ++ s.log := fetchLog
  exact ⟨u.traceCalls ++ (calls ++ fetchCalls), by rw [State.traceStep_log, log, fetched]; simp⟩

end Sys2Proof.Machine
end

section
/-! PROOFS. How a cycle halts the machine (spec/60_exceptions.md section 4, spec/40_instruction_cycle.md section 1):
every part of a cycle but a store to CLK clears the run bit exactly when it gives a diagnostic. -/

namespace Sys2Proof.Machine

/-- The machine is halted when the run bit of CLK was cleared. -/
theorem State.running_of_cleared {s t : State} (cfg : t.cfg = s.cfg)
    (clk : t.word s.cfg.clkAddr = s.word s.cfg.clkAddr &&& 0x7FFF#16) : t.running = false := by
  simp [State.running, cfg, clk]

/-- Some of the calls is a diagnostic. -/
def Diagnoses (calls : List PortCall) : Prop := ∃ k, .diag k ∈ calls

theorem diagnoses_append {first second : List PortCall} :
    Diagnoses (first ++ second) ↔ Diagnoses first ∨ Diagnoses second := by
  simp only [Diagnoses, List.mem_append, exists_or]

/-- From `s` to `t` the calls `calls` are made, and the machine halts exactly by a diagnostic among them. -/
structure HaltsByDiag (calls : List PortCall) (s t : State) : Prop where
  cfg : t.cfg = s.cfg
  log : t.log = calls ++ s.log
  running : t.running = false ↔ s.running = false ∨ Diagnoses calls

/-- A part of a cycle that leaves the CLK word alone, and gives no diagnostic. -/
theorem HaltsByDiag.of_clk {calls : List PortCall} {s t : State} (cfg : t.cfg = s.cfg) (log : t.log = calls ++ s.log)
    (clk : t.word s.cfg.clkAddr = s.word s.cfg.clkAddr) (quiet : ¬ Diagnoses calls) : HaltsByDiag calls s t :=
  ⟨cfg, log, by rw [State.running_congr cfg clk, or_iff_left quiet]⟩

/-- A part of a cycle that clears the run bit, and gives a diagnostic. -/
theorem HaltsByDiag.of_cleared {calls : List PortCall} {s t : State} (cfg : t.cfg = s.cfg)
    (log : t.log = calls ++ s.log) (clk : t.word s.cfg.clkAddr = s.word s.cfg.clkAddr &&& 0x7FFF#16)
    (loud : Diagnoses calls) : HaltsByDiag calls s t :=
  ⟨cfg, log, by simp [State.running_of_cleared cfg clk, loud]⟩

theorem HaltsByDiag.refl (s : State) : HaltsByDiag [] s s :=
  .of_clk rfl rfl rfl (by simp [Diagnoses])

/-- Parts of a cycle, one after the other. -/
theorem HaltsByDiag.trans {first second : List PortCall} {s t u : State} (h : HaltsByDiag first s t)
    (k : HaltsByDiag second t u) : HaltsByDiag (second ++ first) s u where
  cfg := k.cfg.trans h.cfg
  log := by rw [k.log, h.log, List.append_assoc]
  running := by rw [k.running, h.running, diagnoses_append, or_assoc, or_comm (a := Diagnoses first)]

/-- A read halts the machine exactly by its diagnostic: a KBSR read answered Exhausted or Cancelled (R35). -/
theorem haltsByDiag_memRead (s : State) (a : Word) (distinct : s.cfg.Distinct) :
    ∃ calls, HaltsByDiag calls s (s.memRead a).2 := by
  obtain ⟨-, -, -, -, -, -, kbdr_ne_clk, -, -, -⟩ := distinct_ne distinct
  have cfg : (s.memRead a).2.cfg = s.cfg := (s.memRead_cpu a).1.cfg
  rcases s.memRead_cases a with ⟨-, h⟩ | ⟨-, -, h⟩ | ⟨-, -, -, h⟩ | ⟨-, -, -, h⟩ <;> rw [h] at cfg ⊢
  · obtain ⟨-, -, -, answered⟩ := s.kbsrRead_spec
    revert answered
    cases s.input.next with
    | byte b =>
      rintro ⟨-, log, word⟩
      exact ⟨[_], .of_clk cfg log ((word _).trans (if_neg kbdr_ne_clk.symm)) (by simp [Diagnoses])⟩
    | empty =>
      rintro ⟨-, log, word⟩
      exact ⟨[_], .of_clk cfg log (word _) (by simp [Diagnoses])⟩
    | exhausted =>
      rintro ⟨-, log, word⟩
      exact ⟨[_, _], .of_cleared cfg log ((word _).trans (if_pos rfl)) (by simp [Diagnoses])⟩
    | cancelled =>
      rintro ⟨-, log, word⟩
      exact ⟨[_, _], .of_cleared cfg log ((word _).trans (if_pos rfl)) (by simp [Diagnoses])⟩
  · obtain ⟨-, -, ⟨-, -, log⟩, word⟩ := s.kbdrRead_spec
    exact ⟨[], .of_clk cfg log ((word _).trans (if_neg fun h => kbdr_ne_clk h.2.symm)) (by simp [Diagnoses])⟩
  · exact ⟨[], .refl s⟩
  · exact ⟨[], .refl s⟩

/-- So do any number of reads. -/
theorem haltsByDiag_reads {s m : State} (reads : ReadsTo s m) (distinct : s.cfg.Distinct) :
    ∃ calls, HaltsByDiag calls s m := by
  induction reads with
  | refl => exact ⟨[], .refl s⟩
  | read m a _ ih =>
    obtain ⟨first, h⟩ := ih
    obtain ⟨second, k⟩ := haltsByDiag_memRead m a (h.cfg ▸ distinct)
    exact ⟨_, h.trans k⟩

/-- A write that does not go to CLK does not halt the machine, and gives no diagnostic. -/
theorem haltsByDiag_memWrite (s : State) {a : Word} (v : Word) (distinct : s.cfg.Distinct)
    (notClk : a ≠ s.cfg.clkAddr) : ∃ calls, HaltsByDiag calls s (s.memWrite a v) := by
  obtain ⟨-, -, -, -, -, -, -, -, dsr_ne_clk, ddr_ne_clk⟩ := distinct_ne distinct
  have cfg : (s.memWrite a v).cfg = s.cfg := (s.memWrite_stores a v).cpu.cfg
  have clk := s.memWrite_word_ne a v s.cfg.clkAddr notClk.symm dsr_ne_clk.symm ddr_ne_clk.symm
  by_cases ddr : a = s.cfg.ddrAddr
  · obtain ⟨-, -, -, log, -⟩ := s.ddrWrite_spec v
    rw [← s.memWrite_ddr v ddr] at log
    exact ⟨[_], .of_clk cfg log clk (by simp [Diagnoses])⟩
  · by_cases ignored : a = s.cfg.kbsrAddr ∨ a = s.cfg.kbdrAddr ∨ a = s.cfg.dsrAddr
    · rw [s.memWrite_ignored v ddr ignored]
      exact ⟨[], .refl s⟩
    · exact ⟨[], .of_clk cfg (by rw [s.memWrite_stored v ddr ignored]; rfl) clk (by simp [Diagnoses])⟩

/-- The trace step gives no diagnostic. -/
theorem haltsByDiag_traceStep (s : State) : HaltsByDiag s.traceCalls s s.traceStep := by
  refine .of_clk rfl rfl rfl ?_
  rw [State.traceCalls]
  split <;> simp [Diagnoses]

/-- An execute step without a store to CLK halts the machine exactly by a diagnostic. -/
theorem haltsByDiag_exec {i : Instr} {s t : State} (distinct : s.cfg.Distinct) (executed : exec i s = .next t)
    (noStore : ∀ v, storeOf s i ≠ some (s.cfg.clkAddr, v)) : ∃ calls, HaltsByDiag calls s t := by
  obtain ⟨m, reads, same, store⟩ := exec_memory i s t executed
  obtain ⟨-, -, cfg, -, -⟩ := exec_cpu i s t executed
  obtain ⟨calls, read⟩ := haltsByDiag_reads reads distinct
  cases hs : storeOf s i with
  | none =>
    obtain ⟨mem, ⟨-, -, log⟩, -⟩ := same hs
    exact ⟨_, read.trans (.of_clk (calls := []) (cfg.trans read.cfg.symm) log (mem _) (by simp [Diagnoses]))⟩
  | some p =>
    obtain ⟨a, v⟩ := p
    have notClk : a ≠ m.cfg.clkAddr := fun e => noStore v (by rw [hs, e, read.cfg])
    obtain ⟨last, write⟩ := haltsByDiag_memWrite m v (read.cfg ▸ distinct) notClk
    rw [store a v hs]
    exact ⟨_, read.trans write⟩

/-- A store to CLK leaves the machine running exactly when bit 15 of the word is set (R43). -/
theorem State.running_memWrite_clk (s : State) (v : Word) (distinct : s.cfg.Distinct) :
    (s.memWrite s.cfg.clkAddr v).running = v.getLsbD 15 := by
  obtain ⟨-, -, -, kbsr, -, -, kbdr, -, dsr, ddr⟩ := distinct_ne distinct
  have write := s.memWrite_stores s.cfg.clkAddr v
  rw [State.running, write.cpu.cfg, (write.stored ddr.symm kbsr.symm kbdr.symm dsr.symm).1]

/-- Settles O47. If the cycle stores to CLK the word stored decides, whatever was read before. If not, the fetch, the
execute step and the trace step each halt the machine exactly by a diagnostic. -/
theorem waysToHalt : Obligations.WaysToHalt := by
  intro s t calls distinct hr stepped log
  obtain ⟨u, executed, rfl⟩ := step_running hr stepped
  have fetchCfg : s.fetch.cfg = s.cfg := (s.memRead_cpu s.pc).1.cfg
  by_cases clkStore : ∃ v, storeOf s.fetch (decode s.fetch.ir) = some (s.cfg.clkAddr, v)
  · obtain ⟨v, hv⟩ := clkStore
    obtain ⟨m, reads, -, store⟩ := exec_memory _ s.fetch u executed
    have cfg : m.cfg = s.cfg := reads.cpu.cfg.trans fetchCfg
    have running : u.traceStep.running = v.getLsbD 15 := by
      have stored := m.running_memWrite_clk v (cfg ▸ distinct)
      rwa [cfg, ← store _ v hv] at stored
    simp [hv, running]
  · have noStore := not_exists.mp clkStore
    obtain ⟨fetchCalls, read⟩ := haltsByDiag_memRead s s.pc distinct
    have fetch : HaltsByDiag fetchCalls s s.fetch := ⟨read.cfg, read.log, read.running⟩
    obtain ⟨execCalls, exec⟩ := haltsByDiag_exec (fetchCfg ▸ distinct) executed (by rwa [fetchCfg])
    have cycle := (fetch.trans exec).trans (haltsByDiag_traceStep u)
    obtain rfl := List.append_cancel_right (log.symm.trans cycle.log)
    rw [cycle.running, hr]
    simp [noStore, Diagnoses]

end Sys2Proof.Machine
end

section
/-! PROOFS. The trace port and the rest of the machine (spec/40_instruction_cycle.md section 2, spec/60_exceptions.md
section 7): two machines that differ in the trace configuration and in the calls made before stay alike through every
shared operation, and only their trace steps differ. -/

namespace Sys2Proof

namespace Machine

/-- `s` with another trace configuration and another sequence of port calls made so far. -/
def State.retraced (s : State) (mask : BitVec 16) (userOnly enabled : Bool) (calls : List PortCall) : State :=
  { s with
    cfg := { s.cfg with traceMask := mask, traceUserOnly := userOnly, traceEnabled := enabled }
    log := calls }

/-- `s'` is `s` with another trace configuration, and with the calls `old'` where `s` has `old`: the calls made since
are the same. -/
def TraceTwin (mask : BitVec 16) (userOnly enabled : Bool) (old old' : List PortCall) (s s' : State) : Prop :=
  ∃ new : List PortCall, s.log = new ++ old ∧ s' = s.retraced mask userOnly enabled (new ++ old')

section
variable {mask : BitVec 16} {userOnly enabled : Bool} {old old' : List PortCall} {s s' : State}

/-! ### What twins have in common -/

theorem TraceTwin.pc (h : TraceTwin mask userOnly enabled old old' s s') : s'.pc = s.pc := by
  obtain ⟨_, -, rfl⟩ := h; rfl

theorem TraceTwin.ir (h : TraceTwin mask userOnly enabled old old' s s') : s'.ir = s.ir := by
  obtain ⟨_, -, rfl⟩ := h; rfl

theorem TraceTwin.reg (h : TraceTwin mask userOnly enabled old old' s s') (r : Reg) : s'.reg r = s.reg r := by
  obtain ⟨_, -, rfl⟩ := h; rfl

theorem TraceTwin.eaPc (h : TraceTwin mask userOnly enabled old old' s s') (off : Word) : s'.eaPc off = s.eaPc off := by
  obtain ⟨_, -, rfl⟩ := h; rfl

theorem TraceTwin.eaBase (h : TraceTwin mask userOnly enabled old old' s s') (base : Reg) (off : Word) :
    s'.eaBase base off = s.eaBase base off := by
  obtain ⟨_, -, rfl⟩ := h; rfl

theorem TraceTwin.word (h : TraceTwin mask userOnly enabled old old' s s') (a : Word) : s'.word a = s.word a := by
  obtain ⟨_, -, rfl⟩ := h; rfl

theorem TraceTwin.addrs (h : TraceTwin mask userOnly enabled old old' s s') :
    s'.cfg.kbsrAddr = s.cfg.kbsrAddr ∧ s'.cfg.kbdrAddr = s.cfg.kbdrAddr ∧ s'.cfg.dsrAddr = s.cfg.dsrAddr ∧
    s'.cfg.ddrAddr = s.cfg.ddrAddr := by
  obtain ⟨_, -, rfl⟩ := h; exact ⟨rfl, rfl, rfl, rfl⟩

theorem TraceTwin.kbdrReadClears (h : TraceTwin mask userOnly enabled old old' s s') :
    s'.cfg.kbdrReadClears = s.cfg.kbdrReadClears := by
  obtain ⟨_, -, rfl⟩ := h; rfl

theorem TraceTwin.running (h : TraceTwin mask userOnly enabled old old' s s') : s'.running = s.running := by
  obtain ⟨_, -, rfl⟩ := h; rfl

/-! ### What keeps them twins -/

theorem TraceTwin.setPc (h : TraceTwin mask userOnly enabled old old' s s') (a : Word) :
    TraceTwin mask userOnly enabled old old' (s.setPc a) (s'.setPc a) := by
  obtain ⟨new, log, rfl⟩ := h; exact ⟨new, log, rfl⟩

theorem TraceTwin.setIr (h : TraceTwin mask userOnly enabled old old' s s') (w : Word) :
    TraceTwin mask userOnly enabled old old' (s.setIr w) (s'.setIr w) := by
  obtain ⟨new, log, rfl⟩ := h; exact ⟨new, log, rfl⟩

theorem TraceTwin.writeRegCC (h : TraceTwin mask userOnly enabled old old' s s') (r : Reg) (v : Word) :
    TraceTwin mask userOnly enabled old old' (s.writeRegCC r v) (s'.writeRegCC r v) := by
  obtain ⟨new, log, rfl⟩ := h; exact ⟨new, log, rfl⟩

theorem TraceTwin.link (h : TraceTwin mask userOnly enabled old old' s s') :
    TraceTwin mask userOnly enabled old old' s.link s'.link := by
  obtain ⟨new, log, rfl⟩ := h; exact ⟨new, log, rfl⟩

theorem TraceTwin.setWord (h : TraceTwin mask userOnly enabled old old' s s') (a v : Word) :
    TraceTwin mask userOnly enabled old old' (s.setWord a v) (s'.setWord a v) := by
  obtain ⟨new, log, rfl⟩ := h; exact ⟨new, log, rfl⟩

theorem TraceTwin.call (h : TraceTwin mask userOnly enabled old old' s s') (c : PortCall) :
    TraceTwin mask userOnly enabled old old' (s.call c) (s'.call c) := by
  obtain ⟨new, log, rfl⟩ := h; exact ⟨c :: new, by rw [State.call_log, log]; rfl, rfl⟩

/-- A KBSR read: the same poll, with the same answer. -/
theorem TraceTwin.kbsrRead (h : TraceTwin mask userOnly enabled old old' s s') :
    s'.kbsrRead.1 = s.kbsrRead.1 ∧ TraceTwin mask userOnly enabled old old' s.kbsrRead.2 s'.kbsrRead.2 := by
  obtain ⟨new, log, rfl⟩ := h
  simp only [State.kbsrRead, State.inPoll, State.retraced]
  cases s.input.next with
  | byte b => exact ⟨rfl, _ :: new, by simp [State.kbsrAnswer, log], rfl⟩
  | empty => exact ⟨rfl, _ :: new, by simp [State.kbsrAnswer, log], rfl⟩
  | exhausted => exact ⟨rfl, _ :: _ :: new, by simp [State.kbsrAnswer, State.clearRun, log], rfl⟩
  | cancelled => exact ⟨rfl, _ :: _ :: new, by simp [State.kbsrAnswer, State.clearRun, log], rfl⟩

/-- A KBDR read: the same latch. -/
theorem TraceTwin.kbdrRead (h : TraceTwin mask userOnly enabled old old' s s') :
    s'.kbdrRead.1 = s.kbdrRead.1 ∧ TraceTwin mask userOnly enabled old old' s.kbdrRead.2 s'.kbdrRead.2 := by
  obtain ⟨-, kbdr, -, -⟩ := h.addrs
  have clears := h.kbdrReadClears
  cases hc : s.cfg.kbdrReadClears
  · rw [s.kbdrRead_keeps hc, s'.kbdrRead_keeps (clears.trans hc), kbdr, h.word]
    exact ⟨rfl, h⟩
  · rw [s.kbdrRead_clears hc, s'.kbdrRead_clears (clears.trans hc), kbdr, h.word]
    exact ⟨rfl, h.setWord _ _⟩

/-- A MemRead returns the same word to both, and does the same. -/
theorem TraceTwin.memRead (h : TraceTwin mask userOnly enabled old old' s s') (a : Word) :
    (s'.memRead a).1 = (s.memRead a).1 ∧
    TraceTwin mask userOnly enabled old old' (s.memRead a).2 (s'.memRead a).2 := by
  obtain ⟨kbsr, kbdr, -, ddr⟩ := h.addrs
  rcases s'.memRead_cases a with ⟨h₁, e⟩ | ⟨h₁, h₂, e⟩ | ⟨h₁, h₂, h₃, e⟩ | ⟨h₁, h₂, h₃, e⟩ <;> rw [e]
  · rw [s.memRead_kbsr a (h₁.trans kbsr)]
    exact h.kbsrRead
  · rw [s.memRead_kbdr a (kbsr ▸ h₁) (h₂.trans kbdr)]
    exact h.kbdrRead
  · rw [s.memRead_ddr a (kbsr ▸ h₁) (kbdr ▸ h₂) (h₃.trans ddr)]
    exact ⟨rfl, h⟩
  · rw [s.memRead_stored a (kbsr ▸ h₁) (kbdr ▸ h₂) (ddr ▸ h₃)]
    exact ⟨h.word a, h⟩

/-- A DDR write: the same call, with the same answer. -/
theorem TraceTwin.ddrWrite (h : TraceTwin mask userOnly enabled old old' s s') (v : Word) :
    TraceTwin mask userOnly enabled old old' (s.ddrWrite v) (s'.ddrWrite v) := by
  obtain ⟨-, -, -, called, -⟩ := s.ddrWrite_spec v
  obtain ⟨new, log, rfl⟩ := h
  exact ⟨_ :: new, by rw [called, log]; rfl, rfl⟩

/-- A MemWrite does the same to both. -/
theorem TraceTwin.memWrite (h : TraceTwin mask userOnly enabled old old' s s') (a v : Word) :
    TraceTwin mask userOnly enabled old old' (s.memWrite a v) (s'.memWrite a v) := by
  obtain ⟨kbsr, kbdr, dsr, ddr⟩ := h.addrs
  rw [State.memWrite, State.memWrite, kbsr, kbdr, dsr, ddr]
  split
  · exact h.ddrWrite v
  · split
    · exact h
    · exact h.setWord a v

/-- The fetch step reads the same word. -/
theorem TraceTwin.fetch (h : TraceTwin mask userOnly enabled old old' s s') :
    TraceTwin mask userOnly enabled old old' s.fetch s'.fetch := by
  obtain ⟨value, twin⟩ := h.memRead s.pc
  rw [State.fetch, State.fetch, h.pc, value]
  exact (twin.setIr _).setPc _

/-- The last act of a load. -/
theorem TraceTwin.loadFrom (h : TraceTwin mask userOnly enabled old old' s s') (dr : Reg) (a : Word) :
    TraceTwin mask userOnly enabled old old' (s.loadFrom dr a) (s'.loadFrom dr a) := by
  obtain ⟨value, twin⟩ := h.memRead a
  rw [State.loadFrom, State.loadFrom, value]
  exact twin.writeRegCC dr _

/-- The pointer read of LDI and STI. -/
theorem TraceTwin.eaInd (h : TraceTwin mask userOnly enabled old old' s s') (off : Word) :
    (s'.eaInd off).1 = (s.eaInd off).1 ∧
    TraceTwin mask userOnly enabled old old' (s.eaInd off).2 (s'.eaInd off).2 := by
  rw [State.eaInd, State.eaInd, h.eaPc]
  exact h.memRead _

/-- Trap entry. -/
theorem TraceTwin.trapEntry (h : TraceTwin mask userOnly enabled old old' s s') (vect : BitVec 8) :
    TraceTwin mask userOnly enabled old old' (s.trapEntry vect) (s'.trapEntry vect) := by
  obtain ⟨value, twin⟩ := h.link.memRead (zext vect)
  rw [State.trapEntry, State.trapEntry, value]
  exact twin.setPc _

/-- An execute step keeps them twins: what it computes from is the same in both. -/
theorem TraceTwin.exec (h : TraceTwin mask userOnly enabled old old' s s') {i : Instr} {t : State}
    (executed : exec i s = .next t) :
    ∃ t', Machine.exec i s' = .next t' ∧ TraceTwin mask userOnly enabled old old' t t' := by
  cases i <;> injection executed with executed <;> subst executed <;> refine ⟨_, rfl, ?_⟩
  case br n z p off => obtain ⟨new, log, rfl⟩ := h; exact ⟨new, log, rfl⟩
  case addReg dr sr1 sr2 => rw [h.reg, h.reg]; exact h.writeRegCC dr _
  case addImm dr sr1 imm => rw [h.reg]; exact h.writeRegCC dr _
  case andReg dr sr1 sr2 => rw [h.reg, h.reg]; exact h.writeRegCC dr _
  case andImm dr sr1 imm => rw [h.reg]; exact h.writeRegCC dr _
  case not dr sr => rw [h.reg]; exact h.writeRegCC dr _
  case lea dr off => rw [h.eaPc]; exact h.writeRegCC dr _
  case ld dr off => rw [h.eaPc]; exact h.loadFrom dr _
  case ldr dr base off => rw [h.eaBase]; exact h.loadFrom dr _
  case ldi dr off =>
    obtain ⟨pointer, twin⟩ := h.eaInd off
    rw [pointer]
    exact twin.loadFrom dr _
  case st sr off => rw [h.eaPc, h.reg]; exact h.memWrite _ _
  case str sr base off => rw [h.eaBase, h.reg]; exact h.memWrite _ _
  case sti sr off =>
    obtain ⟨pointer, twin⟩ := h.eaInd off
    rw [pointer, h.reg]
    exact twin.memWrite _ _
  case jmp base => rw [h.reg]; exact h.setPc _
  case jsr off => rw [h.eaPc]; exact h.link.setPc _
  case jsrr base => rw [h.reg]; exact h.link.setPc _
  case trap vect => exact h.trapEntry vect
  case rti => exact h
  case reserved low12 => exact h

end

/-- A filter that passes no trace record passes no call of the trace step. -/
theorem State.filter_traceCalls (s : State) {keep : PortCall → Bool} (drop : ∀ r, keep (.traceEmit r) = false) :
    s.traceCalls.filter keep = [] := by
  rw [State.traceCalls]
  split
  · simp [drop]
  · rfl

/-- Settles O52: the two machines are twins up to their trace steps, which add trace records alone. -/
theorem traceNeverAffectsExecution : Obligations.TraceNeverAffectsExecution := by
  intro s t mask userOnly enabled calls stepped
  have twin : TraceTwin mask userOnly enabled s.log calls s (s.retraced mask userOnly enabled calls) := ⟨[], rfl, rfl⟩
  cases hr : s.running with
  | false =>
    obtain rfl : s = t := by rw [step_halted hr] at stepped; injection stepped
    exact ⟨[], [], rfl, step_halted (twin.running.trans hr), rfl⟩
  | true =>
    obtain ⟨cfg, -⟩ := step_cfg_ir hr stepped
    obtain ⟨u, executed, rfl⟩ := step_running hr stepped
    obtain ⟨u', executed', new, log, hu'⟩ := twin.fetch.exec executed
    rw [← twin.fetch.ir] at executed'
    have cfg' : (s.retraced mask userOnly enabled calls).cfg = u'.cfg := by
      rw [hu', State.retraced, State.retraced, ← cfg, State.traceStep_cfg]
    have final : u'.traceStep = { u.traceStep with
        cfg := (s.retraced mask userOnly enabled calls).cfg, log := (u'.traceCalls ++ new) ++ calls } := by
      rw [cfg', List.append_assoc, hu']
      rfl
    refine ⟨u.traceCalls ++ new, u'.traceCalls ++ new, ?_, ?_, ?_⟩
    · rw [State.traceStep_log, log, List.append_assoc]
    · exact (step_of_exec (twin.running.trans hr) executed').trans (congrArg _ final)
    · rw [List.filter_append, List.filter_append, u.filter_traceCalls fun _ => rfl, u'.filter_traceCalls fun _ => rfl]

end Machine
end Sys2Proof
end

section
/-! PROOFS. The operate instructions (spec/41_operate.md): the opcodes with a mode bit, and the word written in
numbers. -/

namespace Sys2Proof

/-- Opcode 0001 is ADD; bit 5 tells its form (R62, R67). -/
theorem decode_of_opcode_add {w : Word} (h : bits 12 4 w = 0x1#4) :
    decode w = if w.getLsbD 5 then .addImm (bits 9 3 w) (bits 6 3 w) (sext (bits 0 5 w))
      else .addReg (bits 9 3 w) (bits 6 3 w) (bits 0 3 w) := by
  obtain ⟨w15, w14, w13, w12⟩ := opcode_bits w
  simp only [decode, w15, w14, w13, w12, h, BitVec.reduceGetLsb]
  rfl

/-- Opcode 0101 is AND; bit 5 tells its form (R62, R67). -/
theorem decode_of_opcode_and {w : Word} (h : bits 12 4 w = 0x5#4) :
    decode w = if w.getLsbD 5 then .andImm (bits 9 3 w) (bits 6 3 w) (sext (bits 0 5 w))
      else .andReg (bits 9 3 w) (bits 6 3 w) (bits 0 3 w) := by
  obtain ⟨w15, w14, w13, w12⟩ := opcode_bits w
  simp only [decode, w15, w14, w13, w12, h, BitVec.reduceGetLsb]
  rfl

/-- Opcode 1000 is RTI, whatever its other bits (R67, R131). -/
theorem decode_of_opcode_rti {w : Word} (h : bits 12 4 w = 0x8#4) : decode w = .rti := by
  obtain ⟨w15, w14, w13, w12⟩ := opcode_bits w
  simp only [decode, w15, w14, w13, w12, h, BitVec.reduceGetLsb]

namespace Machine

/-- The complement in numbers (R102). -/
theorem word_not_eq_ofNat (a : Word) : ~~~a = BitVec.ofNat 16 (0xFFFF - a.toNat) := by
  apply BitVec.eq_of_toNat_eq
  have := a.isLt
  rw [BitVec.toNat_not, BitVec.toNat_ofNat]
  omega

/-- Settles O16: both forms are `writeRegCC` of the sum. -/
theorem addRule : Obligations.AddRule := by
  refine ⟨fun w h => decode_of_opcode_add h, fun s dr sr1 sr2 => ⟨_, rfl, ?_⟩, fun s dr sr1 imm => ⟨_, rfl, ?_⟩⟩
  · rw [← word_add_eq_ofNat]
    exact s.writeRegCC_writes dr _
  · rw [← word_add_eq_ofNat]
    exact s.writeRegCC_writes dr _

/-- Settles O17: both forms are `writeRegCC` of the conjunction. -/
theorem andRule : Obligations.AndRule := by
  refine ⟨fun w h => decode_of_opcode_and h, fun s dr sr1 sr2 => ?_, fun s dr sr1 imm => ?_⟩
  · exact ⟨_, _, rfl, s.writeRegCC_writes dr _, fun _ _ => BitVec.getLsbD_and⟩
  · exact ⟨_, _, rfl, s.writeRegCC_writes dr _, fun _ _ => BitVec.getLsbD_and⟩

/-- Settles O18: NOT is `writeRegCC` of the complement. -/
theorem notResult : Obligations.NotResult := by
  intro s dr sr
  refine ⟨_, rfl, ?_⟩
  rw [← word_not_eq_ofNat]
  exact s.writeRegCC_writes dr _

end Machine
end Sys2Proof
end

section
/-! PROOFS. Loads and stores (spec/42_load_store.md): each is `loadFrom`, `writeRegCC` or `memWrite` at its address. -/

namespace Sys2Proof.Machine

/-- The address `EA_pc` in numbers (R117). -/
theorem State.eaPc_eq_ofNat (s : State) (off : Word) :
    s.eaPc off = BitVec.ofNat 16 ((s.pc.toNat + off.toNat) % 65536) :=
  word_add_eq_ofNat s.pc off

/-- The pointer read at a plain address has no effect (R44, R117). -/
theorem State.eaInd_plain (s : State) {off : Word} (plain : s.cfg.isDevice (s.pc + off) = false) :
    s.eaInd off = (s.word (s.pc + off), s) :=
  s.memRead_plain plain

/-- Settles O19: LD is `loadFrom` at `EA_pc`. -/
theorem ldResult : Obligations.LdResult := by
  intro s dr off
  rw [← s.eaPc_eq_ofNat]
  exact ⟨_, rfl, s.loadFrom_loads dr _⟩

/-- Settles O20: the load is made in the state after the pointer read, which keeps the processor's registers. -/
theorem ldiResult : Obligations.LdiResult := by
  intro s dr off
  have pointer : SameCpu s (s.memRead (s.pc + off)).2 := (s.memRead_cpu _).1
  have load := (s.memRead (s.pc + off)).2.loadFrom_loads dr (s.memRead (s.pc + off)).1
  refine ⟨_, rfl, load, fun r hr => (load.others r hr).trans (pointer.reg r), load.pc.trans pointer.pc,
    load.ir.trans pointer.ir, load.pred.trans pointer.pred, load.cfg.trans pointer.cfg, fun plain plain' => ?_⟩
  rw [s.memRead_plain plain] at load
  obtain ⟨kbsr, kbdr, -, ddr, -⟩ := isDevice_false plain'
  rw [s.eaInd_plain plain]
  exact load.plain kbsr kbdr ddr

/-- Settles O22: LEA is `writeRegCC` of `EA_pc`. -/
theorem leaResult : Obligations.LeaResult := by
  intro s dr off
  rw [← s.eaPc_eq_ofNat]
  exact ⟨_, rfl, s.writeRegCC_writes dr _⟩

/-- Settles O23: ST is `memWrite` at `EA_pc`. -/
theorem stResult : Obligations.StResult :=
  fun s sr off => ⟨_, rfl, s.memWrite_stores (s.eaPc off) (s.reg sr)⟩

/-- Settles O24: the store is made in the state after the pointer read. -/
theorem stiResult : Obligations.StiResult := by
  intro s sr off
  have pointer : SameCpu s (s.eaInd off).2 := (s.memRead_cpu _).1
  have store := (s.eaInd off).2.memWrite_stores (s.eaInd off).1 (s.reg sr)
  refine ⟨_, rfl, store, pointer.trans store.cpu, fun plain => ?_⟩
  rw [s.eaInd_plain plain]
  exact s.memWrite_stores _ _

/-- Settles O25: STR is `memWrite` at `EA_base`. -/
theorem strResult : Obligations.StrResult :=
  fun s sr base off => ⟨_, rfl, s.memWrite_stores (s.eaBase base off) (s.reg sr)⟩

end Sys2Proof.Machine
end

section
/-! PROOFS. Control transfer and system instructions (spec/43_control.md, spec/44_system.md, spec/60_exceptions.md
section 3). -/

namespace Sys2Proof.Machine

/-- The branch test (R120): the mask bit of the current condition code is set. -/
theorem branchTaken_iff (n z p : Bool) (c : CC) :
    branchTaken n z p c = true ↔ (n = true ∧ c = .n) ∨ (z = true ∧ c = .z) ∨ (p = true ∧ c = .p) := by
  cases c <;> simp [branchTaken]

/-- Settles O26: the condition of the statement is the branch test. -/
theorem brResult : Obligations.BrResult := by
  intro s n z p off
  refine ⟨_, rfl, fun taken => ?_, fun notTaken => ?_, fun _ _ => rfl, rfl, ⟨rfl, rfl, fun _ => rfl, rfl, rfl, rfl⟩⟩
  · rw [← branchTaken_iff] at taken
    rw [taken, ← s.eaPc_eq_ofNat]
    exact ⟨rfl, rfl⟩
  · rw [← branchTaken_iff, Bool.not_eq_true] at notTaken
    rw [notTaken]
    exact ⟨rfl, rfl⟩

/-- Settles O27: JMP is `setPc` alone. -/
theorem jmpResult : Obligations.JmpResult :=
  fun _ _ => ⟨_, rfl, rfl, fun _ _ => rfl, rfl, rfl, ⟨rfl, rfl, fun _ => rfl, rfl, rfl, rfl⟩⟩

/-- The link write and a new PC: register 7 holds the old PC, and nothing else changes (R12). -/
theorem State.link_setPc_spec (s : State) (a : Word) :
    (s.link.setPc a).reg linkReg = s.pc ∧ (s.link.setPc a).pc = a ∧ SameRegsBut [linkReg] s (s.link.setPc a) ∧
    (s.link.setPc a).cc = s.cc ∧ (s.link.setPc a).pred = s.pred ∧ Quiet s (s.link.setPc a) := by
  refine ⟨s.reg_setReg_self linkReg s.pc, rfl, fun r hr => ?_, rfl, rfl, ⟨rfl, rfl, fun _ => rfl, rfl, rfl, rfl⟩⟩
  exact s.reg_setReg_ne linkReg r s.pc (by simpa using hr)

/-- Settles O28: the link write, then the new PC. -/
theorem jsrResult : Obligations.JsrResult := by
  intro s off
  rw [← s.eaPc_eq_ofNat]
  exact ⟨_, rfl, s.link_setPc_spec (s.eaPc off)⟩

/-- Settles O29: the target is a value of the state before the link write. -/
theorem jsrrResult : Obligations.JsrrResult :=
  fun s base => ⟨_, rfl, s.link_setPc_spec (s.reg base)⟩

/-- The address of a trap vector in numbers (R130). -/
theorem zext_eq_ofNat (vect : BitVec 8) : zext vect = BitVec.ofNat 16 vect.toNat := by
  rw [BitVec.ofNat_toNat]
  rfl

/-- Settles O30: the link write before the vector read changes neither its answer nor its effects. -/
theorem trapEntry : Obligations.TrapEntry := by
  intro s vect
  rw [← zext_eq_ofNat]
  obtain ⟨-, linked, others, cc, ir, pred, cfg, mem, ports⟩ := s.trapEntry_spec vect
  have pc := s.trapEntry_pc vect
  rw [State.link, State.memRead_setReg] at mem ports
  refine ⟨_, rfl, linked, others, pc, cc, ir, pred, cfg, mem, ports, fun plain => ?_⟩
  rw [s.memRead_plain plain] at pc mem ports
  exact ⟨pc, mem, ports⟩

/-- Settles O31: RTI is an instruction that does nothing, fetched like any other. -/
theorem rtiRule : Obligations.RtiRule := by
  refine ⟨fun w h => decode_of_opcode_rti h, by decide, fun s => rfl, fun s w h hr plain hw => ?_⟩
  subst hw
  exact step_of_exec_same hr plain (decode_of_opcode_rti h) fun _ => rfl

/-- What `exec` answers for a branch not taken: only a wired predictor sees it (R120, R193). -/
theorem exec_br_of_not_taken {n z p : Bool} {s : State} (off : Word) (h : branchTaken n z p s.cc = false) :
    exec (.br n z p off) s =
      .next (s.setPred (if s.cfg.predictorWired then predUpdate s.pred false else s.pred)) := by
  rw [exec, execBr, h]
  rfl

/-- Settles O50: the zero word is BR with no mask bit set, so the branch is not taken. -/
theorem unloadedMemoryIsNoOp : Obligations.UnloadedMemoryIsNoOp := by
  intro s hr plain zero
  have zeroWord : decode 0x0000#16 = .br false false false 0x0000#16 := by decide
  have notTaken : branchTaken false false false s.cc = false := by cases s.cc <;> rfl
  have executed : exec (decode s.fetch.ir) s.fetch =
      .next (s.fetch.setPred (if s.cfg.predictorWired then predUpdate s.pred false else s.pred)) := by
    rw [s.fetch_plain plain, zero, zeroWord]
    exact exec_br_of_not_taken _ notTaken
  rw [step_of_exec hr executed, s.fetch_plain plain, zero]
  rfl

end Sys2Proof.Machine
end

section
/-! PROOFS. The input port (spec/60_exceptions.md section 6, rule R150): Exhausted is for ever, and a file's bytes are
answered once each. -/

namespace Sys2Proof.Machine

/-- After Exhausted the next answer is Exhausted (decision D28). -/
theorem InPort.next_afterPoll_of_exhausted {p : InPort} (h : p.next = .exhausted) : p.afterPoll.next = .exhausted := by
  have given : p.afterPoll.exhausted = true := by rw [InPort.afterPoll, h]; rfl
  rw [InPort.next, if_pos given]

/-- And so is every later one. -/
theorem InPort.next_iterate_of_exhausted {p : InPort} (k : Nat) (h : p.next = .exhausted) :
    (InPort.afterPoll^[k] p).next = .exhausted := by
  induction k generalizing p with
  | zero => exact h
  | succ k ih => exact ih (InPort.next_afterPoll_of_exhausted h)

/-- Before Exhausted the next answer is the first prepared one. -/
theorem InPort.next_of_cons {p : InPort} {a : InAnswer} {rest : List InAnswer} (h : p.exhausted = false)
    (ha : p.answers = a :: rest) : p.next = a := by
  simp [InPort.next, h, ha]

/-- A port with a file's bytes and then Exhausted answers the byte at the index of the poll, and Exhausted past the
last. -/
theorem InPort.next_iterate_of_file {p : InPort} {bs : List Byte} (h : p.exhausted = false)
    (ha : p.answers = bs.map .byte ++ [.exhausted]) (k : Nat) :
    (InPort.afterPoll^[k] p).next = (bs[k]?.map InAnswer.byte).getD .exhausted := by
  induction bs generalizing p k with
  | nil => exact InPort.next_iterate_of_exhausted k (InPort.next_of_cons h ha)
  | cons b rest ih =>
    have answer : p.next = .byte b := InPort.next_of_cons h ha
    cases k with
    | zero => exact answer
    | succ k =>
      rw [Function.iterate_succ_apply, List.getElem?_cons_succ]
      refine ih ?_ ?_ k
      · rw [InPort.afterPoll, answer]; rfl
      · rw [InPort.afterPoll, ha]; rfl

/-- Settles O41: the two laws of the port, the second for each index. -/
theorem inputContract : Obligations.InputContract := by
  refine ⟨fun p k => InPort.next_iterate_of_exhausted k, fun p bs h ha k => ?_⟩
  rw [InPort.next_iterate_of_file h ha k]
  cases bs[k]? <;> rfl

end Sys2Proof.Machine
end

section
/-! PROOFS. The device registers (spec/20_memory.md section 3), the halt request, the trace step and the predictor. -/

namespace Sys2Proof.Machine

/-- Clearing the run bit leaves the other bits of a word. -/
theorem getLsbD_and_7FFF (w : Word) {j : Nat} (hj : j < 15) : (w &&& 0x7FFF#16).getLsbD j = w.getLsbD j := by
  have kept : (0x7FFF#16).getLsbD j = true := by interval_cases j <;> rfl
  rw [BitVec.getLsbD_and, kept, Bool.and_true]

/-! ### KBSR and KBDR -/

/-- A KBSR read whose poll is answered by a byte: KBSR is ready, and the latch holds the byte (R35). -/
theorem State.kbsrRead_byte (s : State) {b : Byte} (h : s.input.next = .byte b) :
    s.kbsrRead.1 = 0x8000#16 ∧ s.kbsrRead.2.log = .inPoll (.byte b) :: s.log ∧
    ∀ a, s.kbsrRead.2.word a = if a = s.cfg.kbdrAddr then zext b else s.word a := by
  obtain ⟨-, -, -, answered⟩ := s.kbsrRead_spec
  rw [h] at answered
  exact answered

/-- One answered by Empty: nothing but the poll (R35). -/
theorem State.kbsrRead_empty (s : State) (h : s.input.next = .empty) :
    s.kbsrRead.1 = 0x0000#16 ∧ s.kbsrRead.2.log = .inPoll .empty :: s.log ∧ SameMemory s s.kbsrRead.2 := by
  obtain ⟨-, -, -, answered⟩ := s.kbsrRead_spec
  rw [h] at answered
  exact answered

/-- One answered by Exhausted or Cancelled: the run bit is cleared and the diagnostic given (R35). -/
theorem State.kbsrRead_halts (s : State) {k : DiagKind}
    (h : (s.input.next = .exhausted ∧ k = .moreInputRequired) ∨ (s.input.next = .cancelled ∧ k = .userCancelled)) :
    s.kbsrRead.1 = 0x0000#16 ∧ s.kbsrRead.2.log = .diag k :: .inPoll s.input.next :: s.log ∧
    ∀ a, s.kbsrRead.2.word a = if a = s.cfg.clkAddr then s.word a &&& 0x7FFF#16 else s.word a := by
  obtain ⟨-, -, -, answered⟩ := s.kbsrRead_spec
  rcases h with ⟨h, rfl⟩ | ⟨h, rfl⟩ <;> rw [h] at answered ⊢ <;> exact answered

/-- A byte as a word keeps its value (R6). -/
theorem toNat_zext_byte (b : Byte) : (zext b).toNat = b.toNat :=
  BitVec.toNat_setWidth_of_le (by decide)

/-- Settles O34: the KBSR read by the answer of its poll. -/
theorem kbsrReadPolls : Obligations.KbsrReadPolls := by
  intro s
  rw [s.memRead_kbsr _ rfl]
  obtain ⟨cpu, input, output, -⟩ := s.kbsrRead_spec
  refine ⟨cpu, output, input, fun b h => ?_, fun h => ?_, fun k h => ?_⟩
  · obtain ⟨value, log, word⟩ := s.kbsrRead_byte h
    refine ⟨value, ?_, fun a ha => (word a).trans (if_neg ha), log⟩
    rw [word, if_pos rfl, toNat_zext_byte]
  · obtain ⟨value, log, mem⟩ := s.kbsrRead_empty h
    exact ⟨value, mem, log⟩
  · obtain ⟨value, log, word⟩ := s.kbsrRead_halts h
    have clk := (word s.cfg.clkAddr).trans (if_pos rfl)
    refine ⟨value, State.running_of_cleared cpu.cfg clk, fun j hj => ?_, fun a ha => (word a).trans (if_neg ha), log⟩
    rw [clk, getLsbD_and_7FFF _ hj]

/-- Settles O35: KBDR is not at KBSR's address, so the read is a KBDR read. -/
theorem kbdrReadReturnsLatch : Obligations.KbdrReadReturnsLatch := by
  intro s distinct
  obtain ⟨kbsr_ne_kbdr, -⟩ := distinct_ne distinct
  rw [s.memRead_kbdr _ kbsr_ne_kbdr.symm rfl]
  obtain ⟨value, cpu, ports, word⟩ := s.kbdrRead_spec
  refine ⟨value, ports, cpu, fun keeps a => ?_, fun clears a => ?_⟩
  · rw [word, keeps]
    exact if_neg fun h => Bool.false_ne_true h.1
  · rw [word, clears]
    simp

/-- A poll answered by a byte leaves the port as the host prepared it, without its first answer. -/
theorem InPort.afterPoll_of_byte {p : InPort} {b : Byte} {rest : List InAnswer} (h : p.exhausted = false)
    (ha : p.answers = .byte b :: rest) : p.afterPoll.exhausted = false ∧ p.afterPoll.answers = rest := by
  rw [InPort.afterPoll, InPort.next_of_cons h ha, ha]
  exact ⟨rfl, rfl⟩

/-- A KBSR read with a byte prepared: ready, the latch holds the byte, and the port goes on. -/
theorem State.memRead_kbsr_of_byte (s : State) {b : Byte} {rest : List InAnswer} (h : s.input.exhausted = false)
    (ha : s.input.answers = .byte b :: rest) :
    (s.memRead s.cfg.kbsrAddr).1 = 0x8000#16 ∧ (s.memRead s.cfg.kbsrAddr).2.cfg = s.cfg ∧
    (s.memRead s.cfg.kbsrAddr).2.word s.cfg.kbdrAddr = zext b ∧
    (s.memRead s.cfg.kbsrAddr).2.input.exhausted = false ∧ (s.memRead s.cfg.kbsrAddr).2.input.answers = rest := by
  rw [s.memRead_kbsr _ rfl]
  obtain ⟨cpu, input, -, -⟩ := s.kbsrRead_spec
  obtain ⟨value, -, word⟩ := s.kbsrRead_byte (InPort.next_of_cons h ha)
  rw [input]
  exact ⟨value, cpu.cfg, (word _).trans (if_pos rfl), InPort.afterPoll_of_byte h ha⟩

/-- Settles O36: the second poll puts its byte over the first. -/
theorem unreadByteIsOverwritten : Obligations.UnreadByteIsOverwritten := by
  intro s b₁ b₂ rest distinct notExhausted answers
  obtain ⟨kbsr_ne_kbdr, -⟩ := distinct_ne distinct
  obtain ⟨value, cfg, -, notExhausted', answers'⟩ := s.memRead_kbsr_of_byte notExhausted answers
  generalize (s.memRead s.cfg.kbsrAddr).2 = t at *
  rw [← cfg] at kbsr_ne_kbdr ⊢
  obtain ⟨value', cfg', latch, -, answers''⟩ := t.memRead_kbsr_of_byte notExhausted' answers'
  generalize (t.memRead t.cfg.kbsrAddr).2 = u at *
  rw [← cfg'] at kbsr_ne_kbdr latch ⊢
  obtain ⟨read, -⟩ := u.kbdrRead_spec
  refine ⟨cfg' ▸ cfg ▸ value, cfg' ▸ value', ?_, answers''⟩
  rw [u.memRead_kbdr _ kbsr_ne_kbdr.symm rfl, read, latch, toNat_zext_byte]

/-! ### DDR, DSR and CLK -/

/-- A DSR read answers the stored word, with no effect (R39). -/
theorem State.memRead_dsr (s : State) (distinct : s.cfg.Distinct) :
    s.memRead s.cfg.dsrAddr = (s.word s.cfg.dsrAddr, s) := by
  obtain ⟨-, kbsr_ne_dsr, -, -, kbdr_ne_dsr, -, -, dsr_ne_ddr, -, -⟩ := distinct_ne distinct
  exact s.memRead_stored _ kbsr_ne_dsr.symm kbdr_ne_dsr.symm dsr_ne_ddr

/-- Settles O38: neither address is KBSR's or KBDR's; a DDR write leaves in DSR the word its answer calls for. -/
theorem displayReads : Obligations.DisplayReads := by
  refine ⟨fun s distinct => ?_, fun c distinct => ?_⟩
  · obtain ⟨-, -, kbsr_ne_ddr, -, -, kbdr_ne_ddr, -, -, -, -⟩ := distinct_ne distinct
    refine ⟨s.memRead_ddr _ kbsr_ne_ddr.symm kbdr_ne_ddr.symm rfl, s.memRead_dsr distinct, fun v => ?_⟩
    obtain ⟨cpu, -, -, -, word⟩ := s.ddrWrite_spec v
    have read := (s.ddrWrite v).memRead_dsr (cpu.cfg ▸ distinct)
    rw [cpu.cfg] at read
    rw [s.memWrite_ddr v rfl, read, word, if_pos rfl]
    cases s.output.next <;> rfl
  · have read := (State.resetWith c).memRead_dsr distinct
    have ready : (State.resetWith c).word c.dsrAddr = 0x8000#16 := by simp [State.word_resetWith]
    exact (congrArg Prod.fst read).trans ready

/-- The bytes a DDR write forwards, in numbers (R41). -/
theorem ddrBytes_eq (terminal : Bool) (v : Word) :
    ddrBytes terminal (bits 0 8 v) =
      if terminal = true ∧ v.toNat % 256 = 0x0A then [0x0D#8, 0x0A#8] else [BitVec.ofNat 8 (v.toNat % 256)] := by
  have byte : bits 0 8 v = BitVec.ofNat 8 (v.toNat % 256) := by
    apply BitVec.eq_of_toNat_eq
    simp [bits]
  have lineFeed : bits 0 8 v = 0x0A#8 ↔ v.toNat % 256 = 0x0A := by
    rw [← BitVec.toNat_inj]
    simp [bits]
  simp only [ddrBytes, lineFeed]
  rw [byte]

/-- One more call adds at the end of the sink what it sent (R151). -/
theorem State.sink_of_log {s t : State} {c : PortCall} (h : t.log = c :: s.log) : t.sink = s.sink ++ c.sent := by
  rw [State.sink, State.sink, h]
  simp

/-- Settles O39: the one call of `ddrWrite_spec`, with its bytes in numbers. -/
theorem ddrWriteForwards : Obligations.DdrWriteForwards := by
  intro s v bytes distinct hbytes
  obtain ⟨-, -, -, -, -, -, -, dsr_ne_ddr, dsr_ne_clk, ddr_ne_clk⟩ := distinct_ne distinct
  rw [← ddrBytes_eq] at hbytes
  subst hbytes
  rw [s.memWrite_ddr v rfl]
  obtain ⟨cpu, -, -, log, word⟩ := s.ddrWrite_spec v
  refine ⟨log, ?_, fun ok => ⟨?_, ?_⟩, fun failed => ⟨?_, ?_⟩, fun a ddr dsr => ?_, cpu, ?_⟩
  · rw [word, if_neg dsr_ne_ddr.symm, if_pos rfl]
  · rw [word, if_pos rfl, ok, dsrAfter]
  · rw [State.sink_of_log log, ok, PortCall.sent]
  · rw [word, if_pos rfl, failed, dsrAfter]
  · rw [State.sink_of_log log, failed, PortCall.sent, List.append_nil]
  · rw [word, if_neg dsr, if_neg ddr]
  · exact State.running_congr cpu.cfg (by rw [word, if_neg dsr_ne_clk.symm, if_neg ddr_ne_clk.symm])

/-- Settles O40: CLK is none of the other devices, so it is read and written as stored. -/
theorem clkIsPlainStorage : Obligations.ClkIsPlainStorage := by
  intro s v distinct
  obtain ⟨-, -, -, kbsr, -, -, kbdr, -, dsr, ddr⟩ := distinct_ne distinct
  have write := s.memWrite_stores s.cfg.clkAddr v
  obtain ⟨stored, others, ports⟩ := write.stored ddr.symm kbsr.symm kbdr.symm dsr.symm
  have running := s.running_memWrite_clk v distinct
  refine ⟨s.memRead_stored _ kbsr.symm kbdr.symm ddr.symm, write.cpu, ports, fun b => ?_, running,
    fun clear => step_halted (running.trans clear)⟩
  split
  · next hb => rw [hb, stored]
  · next hb => exact others b hb

/-- Settles O55: the halt request clears the run bit, and a halted step changes nothing. -/
theorem hostHaltRequest : Obligations.HostHaltRequest := by
  intro s
  obtain ⟨cpu, ports, halted, word⟩ := s.clearRun_spec
  refine ⟨cpu, ports, fun a ha => (word a).trans (if_neg ha), fun j hj => ?_, halted, step_halted halted⟩
  rw [State.hostHalt, word, if_pos rfl, getLsbD_and_7FFF _ hj]

/-! ### Trace and predictor -/

/-- The trace filter (R155). -/
theorem wants_iff (c : Config) (op : BitVec 4) (pc : Word) : wants c op pc = true ↔
    c.traceEnabled = true ∧ (c.traceUserOnly = false ∨ 0x3000 ≤ pc.toNat) ∧ c.traceMask.getLsbD op.toNat = true := by
  simp [wants, and_assoc]

/-- The mask of the spec's example has the bit of ADD alone. -/
theorem getLsbD_addMask_iff (op : BitVec 4) : (0x0002#16).getLsbD op.toNat = true ↔ op = 1#4 := by
  revert op
  decide

/-- A step keeps the parameters (R155: the configuration is immutable). -/
theorem step_cfg {s t : State} (h : step s = .next t) : t.cfg = s.cfg := by
  cases hr : s.running with
  | false =>
    rw [step_halted hr] at h
    injection h with h
    rw [h]
  | true => exact (step_cfg_ir hr h).1

/-- Settles O51: the example by `wants_iff`, from its mask and the address 0x3000. -/
theorem traceFilter : Obligations.TraceFilter := by
  refine ⟨wants_iff, fun s => ?_, fun s t => step_cfg, fun c enabled mask userOnly => ⟨?_, ?_, fun op pc other => ?_⟩⟩
  · obtain ⟨cpu, mem, input, output, log⟩ := s.traceStep_spec
    refine ⟨cpu, mem, input, output, log.trans ?_⟩
    rw [State.traceCalls]
    split <;> rfl
  · rw [wants_iff, mask, getLsbD_addMask_iff]
    exact ⟨enabled, .inr (by decide), rfl⟩
  · rw [Bool.eq_false_iff, Ne, wants_iff, userOnly]
    rintro ⟨-, low, -⟩
    revert low
    decide
  · rw [Bool.eq_false_iff, Ne, wants_iff, mask, getLsbD_addMask_iff]
    rintro ⟨-, -, add⟩
    exact other add

/-- Every instruction but BR leaves the predictor alone (decision D18). -/
theorem exec_pred {i : Instr} {s t : State} (notBr : ∀ n z p off, i ≠ .br n z p off) (h : exec i s = .next t) :
    t.pred = s.pred := by
  cases i <;> injection h with h <;> subst h
  case br n z p off => exact absurd rfl (notBr n z p off)
  case ld dr off => exact (s.loadFrom_loads dr _).pred
  case ldr dr base off => exact (s.loadFrom_loads dr _).pred
  case ldi dr off => exact (State.loadFrom_loads _ dr _).pred.trans (s.memRead_cpu _).1.pred
  case st sr off => exact (s.memWrite_stores _ _).cpu.pred
  case str sr base off => exact (s.memWrite_stores _ _).cpu.pred
  case sti sr off => exact (State.memWrite_stores _ _ _).cpu.pred.trans (s.memRead_cpu _).1.pred
  case trap vect =>
    obtain ⟨-, -, -, -, -, pred, -, -, -⟩ := s.trapEntry_spec vect
    exact pred
  all_goals rfl

/-- Settles O53: the counter value by value, the instructions by `exec_pred`. -/
theorem predictorCounter : Obligations.PredictorCounter := by
  refine ⟨fun q => ?_, fun q => ?_, fun q => ?_, fun i s t => exec_pred⟩
  · cases q <;> decide
  · cases q <;> rfl
  · cases q <;> rfl

end Sys2Proof.Machine
end
